-- ==== Sys2Proof/Word.lean ====
section
/-! DEFINITION. The words of the block: bytes and nibbles (00_scope.md R10) and signed coordinates
of `COORD_BITS` bits, which is 32 here (R8; log entry 2). -/

namespace Sys2Proof

/-- 8 bits, value 0 to 255 (R10). -/
abbrev Byte := BitVec 8

/-- 4 bits, one gray value (R10). -/
abbrev Nibble := BitVec 4

/-- A coordinate port, signed two's complement, `COORD_BITS = 32` (R8, D4). DESIGN CHOICE, entry 2: safe. -/
abbrev Coord := BitVec 32

end Sys2Proof
end

