-- ==== Sys2Proof/Syntax.lean ====
section
/-! DEFINITION. The instructions: the 18 controller commands (30_encoding.md R84) and the 8 host
operations (R90), one constructor for each row of spec/opcode_table.json. -/

namespace Sys2Proof

/-- The 18 command variants, in the source's table order (R85: a closed set). -/
inductive CommandKind where
  | displayOff | displayOn | columnAddress | rowAddress | contrast | remap | startLine | displayOffset
  | normalDisplay | muxRatio | phaseLength | frontClockDivider | functionSelectionA
  | secondPrechargePeriod | comDeselectVoltage | prechargeVoltage | functionSelectionB | commandLock
deriving DecidableEq, Repr

/-- A `Command` value: a variant with its operand bytes (R80, R91). Exactly 18 constructors (R85). -/
inductive Command where
  | displayOff
  | displayOn
  | columnAddress (start stop : Byte)
  | rowAddress (start stop : Byte)
  | contrast (value : Byte)
  | remap (value : Byte)
  | startLine (value : Byte)
  | displayOffset (value : Byte)
  | normalDisplay
  | muxRatio (value : Byte)
  | phaseLength (value : Byte)
  | frontClockDivider (value : Byte)
  | functionSelectionA (value : Byte)
  | secondPrechargePeriod (value : Byte)
  | comDeselectVoltage (value : Byte)
  | prechargeVoltage (value : Byte)
  | functionSelectionB (value : Byte)
  | commandLock (value : Byte)
deriving DecidableEq, Repr

/-- The three command formats: no operand byte, one, two (R80). -/
inductive Format where
  | c0 | c1 | c2
deriving DecidableEq, Repr

/-- One `(x, y, v)` triple: a DRAWPIXEL request or one entry of a batch (R30). -/
structure Pixel where
  x : Coord
  y : Coord
  v : Nibble
deriving DecidableEq, Repr

/-- Every row of the opcode table. The first 18 are the controller commands (R112 to R129), each standing
for the block sending that command; the last 8 are the host operations (R140 to R144, R164 to R167).
`sendcmd` carries the port triple `(sel, a, b)` of R91. -/
inductive Instr where
  | displayOff
  | displayOn
  | columnAddress (start stop : Byte)
  | rowAddress (start stop : Byte)
  | contrast (value : Byte)
  | remap (value : Byte)
  | startLine (value : Byte)
  | displayOffset (value : Byte)
  | normalDisplay
  | muxRatio (value : Byte)
  | phaseLength (value : Byte)
  | frontClockDivider (value : Byte)
  | functionSelectionA (value : Byte)
  | secondPrechargePeriod (value : Byte)
  | comDeselectVoltage (value : Byte)
  | prechargeVoltage (value : Byte)
  | functionSelectionB (value : Byte)
  | commandLock (value : Byte)
  | reset
  | init
  | sendcmd (sel a b : Byte)
  | flush
  | drawpixel (x y : Coord) (v : Nibble)
  | clear (v : Nibble)
  | bbox
  | drawbatch (batch : List Pixel)
deriving DecidableEq, Repr

/-- Why bytes are no request record and no command. Raised by the decoder only; safe (entry 8). -/
inductive Reject where
  /-- no byte at all -/
  | emptyRecord
  /-- the first byte is neither one of the 18 opcodes (R84) nor a 3-bit select code (R90) -/
  | unassignedFirstByte (b : Byte)
  /-- operand bytes are missing -/
  | truncated
  /-- a gray value wider than 4 bits (U13) -/
  | grayWiderThanFourBits (b : Byte)
  /-- a batch entry's mark is neither 0 (end) nor 1 (an entry follows) -/
  | badBatchMark (b : Byte)
deriving DecidableEq, Repr

end Sys2Proof
end

