-- ==== Sys2Proof/Decode.lean ====
section
/-! DEFINITION. The opcode map, the command encoder and decoder (30_encoding.md R80 to R91, 40 R110, R130),
and the byte form of a request record: its decoder, total on any bytes, and its encoder (entry 4). -/

namespace Sys2Proof

/-! ### The opcode map (R84) -/

/-- Every variant once, in the source's table order. -/
def CommandKind.all : List CommandKind :=
  [.displayOff, .displayOn, .columnAddress, .rowAddress, .contrast, .remap, .startLine, .displayOffset,
   .normalDisplay, .muxRatio, .phaseLength, .frontClockDivider, .functionSelectionA,
   .secondPrechargePeriod, .comDeselectVoltage, .prechargeVoltage, .functionSelectionB, .commandLock]

/-- The opcode byte of a variant (R84). -/
def CommandKind.opcode : CommandKind → Byte
  | .columnAddress => 0x15
  | .rowAddress => 0x75
  | .contrast => 0x81
  | .remap => 0xA0
  | .startLine => 0xA1
  | .displayOffset => 0xA2
  | .normalDisplay => 0xA4
  | .muxRatio => 0xA8
  | .functionSelectionA => 0xAB
  | .displayOff => 0xAE
  | .displayOn => 0xAF
  | .phaseLength => 0xB1
  | .frontClockDivider => 0xB3
  | .secondPrechargePeriod => 0xB6
  | .prechargeVoltage => 0xBC
  | .comDeselectVoltage => 0xBE
  | .functionSelectionB => 0xD5
  | .commandLock => 0xFD

/-- The format of a variant (R84): the length depends on the opcode alone (R81). -/
def CommandKind.format : CommandKind → Format
  | .displayOff | .displayOn | .normalDisplay => .c0
  | .columnAddress | .rowAddress => .c2
  | .contrast | .remap | .startLine | .displayOffset | .muxRatio | .phaseLength | .frontClockDivider
  | .functionSelectionA | .secondPrechargePeriod | .comDeselectVoltage | .prechargeVoltage
  | .functionSelectionB | .commandLock => .c1

/-- The variant an opcode byte names, matched on all 8 bits (R84); none for the 238 other bytes (R85). -/
def CommandKind.ofOpcode (b : Byte) : Option CommandKind :=
  CommandKind.all.find? (fun k => k.opcode == b)

/-! ### Commands -/

/-- The variant of a command. -/
def Command.kind : Command → CommandKind
  | .displayOff => .displayOff
  | .displayOn => .displayOn
  | .columnAddress _ _ => .columnAddress
  | .rowAddress _ _ => .rowAddress
  | .contrast _ => .contrast
  | .remap _ => .remap
  | .startLine _ => .startLine
  | .displayOffset _ => .displayOffset
  | .normalDisplay => .normalDisplay
  | .muxRatio _ => .muxRatio
  | .phaseLength _ => .phaseLength
  | .frontClockDivider _ => .frontClockDivider
  | .functionSelectionA _ => .functionSelectionA
  | .secondPrechargePeriod _ => .secondPrechargePeriod
  | .comDeselectVoltage _ => .comDeselectVoltage
  | .prechargeVoltage _ => .prechargeVoltage
  | .functionSelectionB _ => .functionSelectionB
  | .commandLock _ => .commandLock

/-- The operand bytes of a command, in the order the source's table lists them (R55, R80). -/
def Command.operands : Command → List Byte
  | .displayOff | .displayOn | .normalDisplay => []
  | .columnAddress a b | .rowAddress a b => [a, b]
  | .contrast a | .remap a | .startLine a | .displayOffset a | .muxRatio a | .phaseLength a
  | .frontClockDivider a | .functionSelectionA a | .secondPrechargePeriod a | .comDeselectVoltage a
  | .prechargeVoltage a | .functionSelectionB a | .commandLock a => [a]

/-- `encode : Command -> list of bytes` (R110): the opcode, then the operands, copied bit for bit (R82). -/
def Command.encode (c : Command) : List Byte := c.kind.opcode :: c.operands

/-- The command of a variant with operand bytes `a`, `b`; a format ignores the bytes it does not have (R91). -/
def CommandKind.build (k : CommandKind) (a b : Byte) : Command :=
  match k with
  | .displayOff => .displayOff
  | .displayOn => .displayOn
  | .columnAddress => .columnAddress a b
  | .rowAddress => .rowAddress a b
  | .contrast => .contrast a
  | .remap => .remap a
  | .startLine => .startLine a
  | .displayOffset => .displayOffset a
  | .normalDisplay => .normalDisplay
  | .muxRatio => .muxRatio a
  | .phaseLength => .phaseLength a
  | .frontClockDivider => .frontClockDivider a
  | .functionSelectionA => .functionSelectionA a
  | .secondPrechargePeriod => .secondPrechargePeriod a
  | .comDeselectVoltage => .comDeselectVoltage a
  | .prechargeVoltage => .prechargeVoltage a
  | .functionSelectionB => .functionSelectionB a
  | .commandLock => .commandLock a

/-- The command a port triple `(sel, a, b)` carries, none when `sel` is not one of the 18 opcodes (R91, D18). -/
def Command.ofPort (sel a b : Byte) : Option Command :=
  (CommandKind.ofOpcode sel).map (fun k => k.build a b)

/-- The operands a format takes from the bytes after the opcode, and the bytes left. -/
def takeOperands (k : CommandKind) (f : Format) (rest : List Byte) : Except Reject (Command × List Byte) :=
  match f, rest with
  | .c0, rest => .ok (k.build 0 0, rest)
  | .c1, a :: rest => .ok (k.build a 0, rest)
  | .c2, a :: b :: rest => .ok (k.build a b, rest)
  | .c1, [] => .error .truncated
  | .c2, [] => .error .truncated
  | .c2, [_] => .error .truncated

/-- The command decoder of R130: byte 0 gives the format, the following bytes are `a`, `b`. -/
def Command.decode (bytes : List Byte) : Except Reject (Command × List Byte) :=
  match bytes with
  | [] => .error .emptyRecord
  | op :: rest =>
    match CommandKind.ofOpcode op with
    | none => .error (.unassignedFirstByte op)
    | some k => takeOperands k k.format rest

/-- A command as an instruction: the block sending it (entry 6). -/
def Instr.ofCommand : Command → Instr
  | .displayOff => .displayOff
  | .displayOn => .displayOn
  | .columnAddress a b => .columnAddress a b
  | .rowAddress a b => .rowAddress a b
  | .contrast a => .contrast a
  | .remap a => .remap a
  | .startLine a => .startLine a
  | .displayOffset a => .displayOffset a
  | .normalDisplay => .normalDisplay
  | .muxRatio a => .muxRatio a
  | .phaseLength a => .phaseLength a
  | .frontClockDivider a => .frontClockDivider a
  | .functionSelectionA a => .functionSelectionA a
  | .secondPrechargePeriod a => .secondPrechargePeriod a
  | .comDeselectVoltage a => .comDeselectVoltage a
  | .prechargeVoltage a => .prechargeVoltage a
  | .functionSelectionB a => .functionSelectionB a
  | .commandLock a => .commandLock a

/-! ### Request records as bytes (DESIGN CHOICE, entry 4: the spec fixes the fields and `op`, not a layout)

Byte 0 is `op` in bits 2:0 with bits 7:3 zero, or the opcode of a controller command. The fields the operation
uses follow. Bytes after them belong to fields the operation does not use and are ignored (R30). -/

/-- A coordinate from its four bytes, least significant first. -/
def coordOfBytes (b0 b1 b2 b3 : Byte) : Coord := b3 ++ b2 ++ b1 ++ b0

/-- The four bytes of a coordinate, least significant first. -/
def coordBytes (x : Coord) : List Byte :=
  [x.extractLsb' 0 8, x.extractLsb' 8 8, x.extractLsb' 16 8, x.extractLsb' 24 8]

/-- A gray value port is 4 bits wide: a byte with a bit set above them is no gray value (D5, U13). -/
def grayOfByte (b : Byte) : Except Reject Nibble :=
  if b.extractLsb' 4 4 = 0 then .ok (b.extractLsb' 0 4) else .error (.grayWiderThanFourBits b)

/-- The byte that carries a gray value. -/
def grayByte (v : Nibble) : Byte := v.setWidth 8

/-- `x`, `y`, `v` of a pixel, 9 bytes. -/
def pixelBytes (p : Pixel) : List Byte := coordBytes p.x ++ coordBytes p.y ++ [grayByte p.v]

/-- The pixel 9 bytes carry. -/
def pixelOfBytes (x0 x1 x2 x3 y0 y1 y2 y3 vb : Byte) : Except Reject Pixel :=
  match grayOfByte vb with
  | .error e => .error e
  | .ok v => .ok ⟨coordOfBytes x0 x1 x2 x3, coordOfBytes y0 y1 y2 y3, v⟩

/-- The entries of a batch: each behind a byte 1, a byte 0 at the end. -/
def decodeBatch : List Byte → Except Reject (List Pixel × List Byte)
  | [] => .error .truncated
  | mark :: rest =>
    if mark = 0 then .ok ([], rest)
    else if mark = 1 then
      match rest with
      | x0 :: x1 :: x2 :: x3 :: y0 :: y1 :: y2 :: y3 :: vb :: more =>
        match pixelOfBytes x0 x1 x2 x3 y0 y1 y2 y3 vb with
        | .error e => .error e
        | .ok p =>
          match decodeBatch more with
          | .error e => .error e
          | .ok (ps, left) => .ok (p :: ps, left)
      | _ => .error .truncated
    else .error (.badBatchMark mark)

/-- The operands of a host operation, by its select code (R90): all 8 codes are assigned. -/
def decodeHostOp (op : BitVec 3) (rest : List Byte) : Except Reject (Instr × List Byte) :=
  match op.toNat with
  | 0 => .ok (.reset, rest)
  | 1 => .ok (.init, rest)
  | 2 =>
    match rest with
    | sel :: a :: b :: more => .ok (.sendcmd sel a b, more)
    | _ => .error .truncated
  | 3 => .ok (.flush, rest)
  | 4 =>
    match rest with
    | x0 :: x1 :: x2 :: x3 :: y0 :: y1 :: y2 :: y3 :: vb :: more =>
      match pixelOfBytes x0 x1 x2 x3 y0 y1 y2 y3 vb with
      | .error e => .error e
      | .ok p => .ok (.drawpixel p.x p.y p.v, more)
    | _ => .error .truncated
  | 5 =>
    match rest with
    | vb :: more =>
      match grayOfByte vb with
      | .error e => .error e
      | .ok v => .ok (.clear v, more)
    | [] => .error .truncated
  | 6 => .ok (.bbox, rest)
  | _ =>
    match decodeBatch rest with
    | .error e => .error e
    | .ok (batch, more) => .ok (.drawbatch batch, more)

/-- The decoder, total on any bytes: an instruction and the bytes left, or the reason there is none. -/
def decode (bytes : List Byte) : Except Reject (Instr × List Byte) :=
  match bytes with
  | [] => .error .emptyRecord
  | b :: rest =>
    match CommandKind.ofOpcode b with
    | some _ =>
      match Command.decode (b :: rest) with
      | .error e => .error e
      | .ok (c, more) => .ok (Instr.ofCommand c, more)
    | none =>
      if b.extractLsb' 3 5 = 0 then decodeHostOp (b.extractLsb' 0 3) rest
      else .error (.unassignedFirstByte b)

/-- The bytes of a batch. -/
def batchBytes (batch : List Pixel) : List Byte :=
  batch.flatMap (fun p => 1 :: pixelBytes p) ++ [0]

/-- The encoder: the bytes of an instruction, from the same tables (R84, R90, R110; entry 4). -/
def encode : Instr → List Byte
  | .displayOff => Command.encode .displayOff
  | .displayOn => Command.encode .displayOn
  | .columnAddress a b => Command.encode (.columnAddress a b)
  | .rowAddress a b => Command.encode (.rowAddress a b)
  | .contrast a => Command.encode (.contrast a)
  | .remap a => Command.encode (.remap a)
  | .startLine a => Command.encode (.startLine a)
  | .displayOffset a => Command.encode (.displayOffset a)
  | .normalDisplay => Command.encode .normalDisplay
  | .muxRatio a => Command.encode (.muxRatio a)
  | .phaseLength a => Command.encode (.phaseLength a)
  | .frontClockDivider a => Command.encode (.frontClockDivider a)
  | .functionSelectionA a => Command.encode (.functionSelectionA a)
  | .secondPrechargePeriod a => Command.encode (.secondPrechargePeriod a)
  | .comDeselectVoltage a => Command.encode (.comDeselectVoltage a)
  | .prechargeVoltage a => Command.encode (.prechargeVoltage a)
  | .functionSelectionB a => Command.encode (.functionSelectionB a)
  | .commandLock a => Command.encode (.commandLock a)
  | .reset => [0]
  | .init => [1]
  | .sendcmd sel a b => [2, sel, a, b]
  | .flush => [3]
  | .drawpixel x y v => 4 :: pixelBytes ⟨x, y, v⟩
  | .clear v => [5, grayByte v]
  | .bbox => [6]
  | .drawbatch batch => 7 :: batchBytes batch

/-! ### The host's table words (entry 20) -/

/-- The bytes of a table word: byte 0 is bits 7:0, a later byte's bits count on; every bit above `nbits` is 0,
up to 16 bytes or the word's own length. -/
def tableBytes (nbits w : Nat) : List Byte :=
  (List.range (max 16 ((nbits + 7) / 8))).map (fun k => BitVec.ofNat 8 ((w % 2 ^ nbits) / 2 ^ (8 * k)))

/-- The instruction the decoder reads from a table word. -/
def decodeTableWord (nbits w : Nat) : Option Instr :=
  match decode (tableBytes nbits w) with
  | .ok (i, _) => some i
  | .error _ => none

end Sys2Proof
end

