-- ==== Sys2Proof/Config.lean ====
section
/-! DEFINITION. Parameters and free values: the panel geometry (00_scope.md R6, R7), the neutral
commands (R8), the reset delay (R8), and the constants the spec leaves open (R8, R12). -/

namespace Sys2Proof

/-- A level of the reset line or of the data/command line. -/
inductive LineLevel where
  | low | high
deriving DecidableEq, Repr, Inhabited

/-- What a collaborator answers to a fallible call (R12). -/
inductive Answer where
  | ok | err
deriving DecidableEq, Repr, Inhabited

/-- The constraints on a geometry descriptor (R7, D6): `W` even and 2 to 256, `H` 1 to 256. -/
abbrev LegalGeometry (W H : Nat) : Prop := W % 2 = 0 ∧ 2 ≤ W ∧ W ≤ 256 ∧ 1 ≤ H ∧ H ≤ 256

/-- A panel geometry (R6). A descriptor outside R7 is no geometry of the spec (U14), so it cannot be built. -/
structure Geometry where
  W : Nat
  H : Nat
  legal : LegalGeometry W H
deriving DecidableEq, Repr

/-- `BUFLEN = W * H * 4 / 8 = W * H / 2`, derived and never settable (R6). -/
def Geometry.bufLen (g : Geometry) : Nat := g.W * g.H / 2

/-- The one named instance, 128 by 128 (R6). -/
def Config.G128x128 : Geometry := ⟨128, 128, by decide⟩

/-- The default of NEUTRAL_CMDS (R8, R184). -/
def Config.neutralDefault : List CommandKind := [.contrast, .displayOn, .displayOff, .normalDisplay]

/-- RESET_DELAY, the argument of each delay of RESET (R8, R140). -/
def Config.resetDelay : Nat := 100

/-- Free value (R12, D10; entry 3): the answer of a fallible call that `oracle` does not give, by the call's number.
It has no body: no proof can see which answer it is. -/
opaque Config.freeAnswer : Nat → Answer

/-- DC_CMD_LEVEL, left open (R8, D2). No rule reads it. -/
opaque Config.dcCmdLevel : LineLevel

/-- The bit-serial framing of a byte transaction: bit order, clock mode, chip select (R8). -/
structure WireFraming where
  msbFirst : Bool
  clockIdleHigh : Bool
  sampleOnSecondEdge : Bool
  selectHeldForWholeCall : Bool
deriving DecidableEq, Repr, Inhabited

/-- WIRE, left open (R8, D1). No rule reads it. -/
opaque Config.wire : WireFraming

end Sys2Proof
end

