-- ==== Sys2Proof/Machine/State.lean ====
section
/-! DEFINITION. The state of the machine as plain data: the framebuffer (10_state.md R20, R21), the four ghost
values (R25 to R29), the parameters (00_scope.md R6 to R8), and the ports (R12, R15, R30). -/

namespace Sys2Proof.Machine

/-- The framebuffer's contents: (byte index, byte) pairs, indices strictly rising, no entry equal to what an
unlisted index reads as (`Memory.wf`, Machine/Ops.lean). -/
abbrev Memory := List Host.Cell

/-- Ghost `phase` (R25). -/
inductive Phase where
  | uncommitted | reset | initialized
deriving DecidableEq, Repr

/-- Ghost `RES`: the last level the block is known to have driven on the reset line (R27). -/
inductive ResetLine where
  | unknown | high | low
deriving DecidableEq, Repr

/-- Ghost `PANEL` (R28): `Unknown`, or `Image(f)`, `f` written out as `H` rows of `W` nibbles (entry 11). -/
inductive Panel where
  | unknown
  | image (rows : List (List Nibble))
deriving DecidableEq, Repr

/-- One call on an external collaborator with its answer (R12, R29). -/
inductive Event where
  | cmd (bytes : List Byte) (r : Answer)
  | data (bytes : List Byte) (r : Answer)
  | line (level : LineLevel) (r : Answer)
  | delay (duration : Nat)
deriving DecidableEq, Repr

/-- A call the block makes on its bus-side ports (R12, R31). -/
inductive Call where
  | sendCommand (bytes : List Byte)
  | sendData (bytes : List Byte)
  | setLine (level : LineLevel)
  | delay (duration : Nat)
deriving DecidableEq, Repr

/-- The result of a host operation (R30, R200): one error, no payload (D17). -/
inductive Result where
  | ok | busWriteError
deriving DecidableEq, Repr

/-- BBOX's four constants (R30, R167). -/
structure Box where
  x : Nat
  y : Nat
  w : Nat
  h : Nat
deriving DecidableEq, Repr

/-- The block's answer to one request (R30). -/
structure Reply where
  result : Result
  box : Option Box
deriving DecidableEq, Repr

/-- Everything the spec gives the machine. -/
structure State where
  /-- parameter `(W, H)` (R6, R32); no operation changes it -/
  geom : Geometry
  /-- parameter NEUTRAL_CMDS (R8, R184); no operation changes it -/
  neutral : List CommandKind
  /-- FB, the one architectural object (R20, R21) -/
  fb : Memory
  /-- ghost `phase` (R25) -/
  phase : Phase
  /-- ghost `RES` (R27) -/
  res : ResetLine
  /-- ghost `PANEL` (R28) -/
  panel : Panel
  /-- ghost `TRACE`, oldest first (R29) -/
  trace : List Event
  /-- the host's requests still to run, first one first, as byte records (R15, R30) -/
  requests : List (List Byte)
  /-- the answers the coming fallible calls get, first one first (R12, R15) -/
  oracle : List Answer
  /-- the model's own: how many fallible calls were made; the argument of `Config.freeAnswer` (entry 3) -/
  callNo : Nat
  /-- the answers the host got, oldest first (R15) -/
  answers : List Reply
deriving DecidableEq, Repr

/-- Why the machine stops. -/
inductive Fault where
  /-- Raised by the byte access of Machine/Ops.lean for an index outside `[0, BUFLEN)`. Safe (entry 9): the spec
  says no rule forms such an index (R51, R58), and a statement says that no step raises this. -/
  | indexOutsideFramebuffer (index : Nat)
deriving DecidableEq, Repr

/-- Why a request has no step. -/
inductive Refusal where
  /-- Raised by `exec` for an instruction that has no meaning yet. Safe. -/
  | notModelled (mnemonic : String)
  /-- Raised by SENDCMD for a selector that is not one of the 18 opcodes (R91, D18). Safe (entry 7). -/
  | selectorOutsideClosedSet (sel : Byte)
  /-- Raised by `step` for a pending record that is no request (R85, R91, U11, U13). Safe (entry 8). -/
  | notARequest (why : Reject)
deriving DecidableEq, Repr

/-- The state just after construction with a chosen geometry and neutral set (R36, R230). -/
def State.construct (g : Geometry) (neutral : List CommandKind) : State where
  geom := g
  neutral := neutral
  fb := []
  phase := .uncommitted
  res := .unknown
  panel := .unknown
  trace := []
  requests := []
  oracle := []
  callNo := 0
  answers := []

/-- The block right after construction, its only reset (R36, R231): the named geometry and the default neutral
set (entry 1). -/
def State.reset : State := State.construct Config.G128x128 Config.neutralDefault

end Sys2Proof.Machine
end

