-- ==== Sys2Proof/Machine/Operands.lean ====
section
/-! DEFINITION. Operand forms and the arithmetic on them (42_drawing_ops.md R160 to R173): nibble packing, the
bounds check, the pixel-to-byte map, the CLEAR byte; and INIT's constant sequence (41 R142). -/

namespace Sys2Proof.Machine

/-- `b[7:4]` (R10). -/
def highNibble (b : Byte) : Nibble := b.extractLsb' 4 4

/-- `b[3:0]` (R10). -/
def lowNibble (b : Byte) : Nibble := b.extractLsb' 0 4

/-- `update_upper_half(b, v) = (b & 0x0F) | ((v << 4) & 0xF0)` (R160). -/
def updateUpperHalf (b : Byte) (v : Nibble) : Byte := (b &&& 0x0F#8) ||| ((v.setWidth 8 <<< 4) &&& 0xF0#8)

/-- `update_lower_half(b, v) = (b & 0xF0) | (v & 0x0F)` (R161). -/
def updateLowerHalf (b : Byte) (v : Nibble) : Byte := (b &&& 0xF0#8) ||| (v.setWidth 8 &&& 0x0F#8)

/-- The byte CLEAR writes, `(v << 4) | v` (R166). -/
def clearByte (v : Nibble) : Byte := (v.setWidth 8 <<< 4) ||| v.setWidth 8

/-- `in_bounds(x, y)`: four signed comparisons (R58, R163). -/
def inBounds (g : Geometry) (x y : Coord) : Bool :=
  decide (0 ≤ x.toInt) && decide (x.toInt < g.W) && decide (0 ≤ y.toInt) && decide (y.toInt < g.H)

/-- `idx(x, y) = x / 2 + y * (W / 2)` on naturals (R52). -/
def pixelIndex (g : Geometry) (x y : Nat) : Nat := x / 2 + y * (g.W / 2)

/-- The byte index of an in-bounds coordinate pair: its coordinates are naturals then (R10, R171). -/
def coordIndex (g : Geometry) (x y : Coord) : Nat := pixelIndex g x.toInt.toNat y.toInt.toNat

/-- The lane a column selects: even the high nibble, odd the low one (R52, R172). -/
def updateLane (x : Nat) (v : Nibble) (b : Byte) : Byte :=
  if x % 2 = 0 then updateUpperHalf b v else updateLowerHalf b v

/-- The nibble of a byte that holds column `x` (R52). -/
def laneOf (x : Nat) (b : Byte) : Nibble := if x % 2 = 0 then highNibble b else lowNibble b

/-- `INIT_SEQ`, steps 1 to 18 (R142); only steps 2 and 3 depend on the geometry (R83). -/
def initSeq (g : Geometry) : List Command :=
  [.displayOff,
   .columnAddress 0x00 (BitVec.ofNat 8 (g.W - 1)),
   .rowAddress 0x00 (BitVec.ofNat 8 (g.H - 1)),
   .contrast 0x80,
   .remap 0x51,
   .startLine 0x00,
   .displayOffset 0x00,
   .normalDisplay,
   .muxRatio 0x7F,
   .phaseLength 0xF1,
   .frontClockDivider 0x00,
   .functionSelectionA 0x01,
   .secondPrechargePeriod 0x0F,
   .comDeselectVoltage 0x0F,
   .prechargeVoltage 0x08,
   .functionSelectionB 0x62,
   .commandLock 0x12,
   .displayOn]

/-- The calls of INIT, one for each step (R141). -/
def initCalls (g : Geometry) : List Call := (initSeq g).map (fun c => .sendCommand c.encode)

/-- The six calls of RESET (R140). -/
def resetCalls : List Call :=
  [.setLine .high, .delay Config.resetDelay, .setLine .low, .delay Config.resetDelay, .setLine .high,
   .delay Config.resetDelay]

end Sys2Proof.Machine
end

