-- ==== Sys2Proof/Machine/Panel.lean ====
section
/-! DEFINITION. The observation functions on packed bytes (42 R168, 43 R182): what a block of bytes shows as
pixels, and the table of an image. -/

namespace Sys2Proof.Machine

/-- `unpack(d)(x, y)`: the nibble of byte `idx(x, y)` that column `x` selects (R182). -/
def unpackAt (g : Geometry) (d : List Byte) (x y : Nat) : Nibble := laneOf x (d.getD (pixelIndex g x y) 0)

/-- `unpack(d)` written out: `H` rows, top first, of `W` nibbles, left first (R182). -/
def unpack (g : Geometry) (d : List Byte) : List (List Nibble) :=
  (List.range g.H).map (fun y => (List.range g.W).map (fun x => unpackAt g d x y))

/-- The nibble an image shows at `(x, y)`, none outside it (R28). -/
def imageAt (rows : List (List Nibble)) (x y : Nat) : Option Nibble :=
  match rows[y]? with
  | some row => row[x]?
  | none => none

end Sys2Proof.Machine
end

