-- ==== Sys2Proof/Machine/Flags.lean ====
section
/-! DEFINITION. The block has no flags and no condition codes (10_state.md R24). This file holds the status the
spec keeps instead, the ghost values: their tables for operations that answer `ok` (R26, 43 R183) and for a
reset-line call (R27). What an error does to them is `raiseBusWriteError` in Machine/Ops.lean (60 R206). -/

namespace Sys2Proof.Machine

/-- `RES` after `SetLine(level)` answered `r` (R27, D8). -/
def resAfterSetLine (level : LineLevel) (r : Answer) : ResetLine :=
  match r, level with
  | .ok, .high => .high
  | .ok, .low => .low
  | .err, _ => .unknown

/-- `phase` after an INIT that answered `ok`, requested in `p0` (R26, D24). -/
def phaseAfterInit (p0 : Phase) : Phase :=
  match p0 with
  | .uncommitted => .uncommitted
  | .reset => .initialized
  | .initialized => .initialized

/-- `phase` after a command sent with answer `ok` (R26, D7): membership in NEUTRAL_CMDS is by variant (R143). -/
def phaseAfterSend (neutral : List CommandKind) (k : CommandKind) (p : Phase) : Phase :=
  if k ∈ neutral then p else .uncommitted

/-- `PANEL` after a command sent with answer `ok` (R183, R184). -/
def panelAfterSend (neutral : List CommandKind) (k : CommandKind) (P : Panel) : Panel :=
  if k ∈ neutral then P else .unknown

/-- `PANEL` after a FLUSH of block `d` that answered `ok` in phase `p` (R183). -/
def panelAfterFlush (g : Geometry) (p : Phase) (d : List Byte) : Panel :=
  if p = .initialized then .image (unpack g d) else .unknown

end Sys2Proof.Machine
end

