-- ==== Sys2Proof/Machine/Ops.lean ====
section
/-! DEFINITION. The named operations: the framebuffer's bytes, one update for each field of State, the bus-side
calls, the bus write error (60_exceptions.md R206) and the answer to the host. -/

namespace Sys2Proof.Machine

/-! ### The framebuffer as a sparse memory (10 R21, 20 R51) -/

/-- What an unlisted index reads as: FB is zero-filled at construction (R21, R230). -/
def Memory.unlisted : Byte := 0x00

/-- The byte at an index. -/
def Memory.read (m : Memory) (i : Nat) : Byte :=
  match m with
  | [] => Memory.unlisted
  | (a, b) :: rest => if a = i then b else Memory.read rest i

/-- The memory without an entry for an index. -/
def Memory.erase (m : Memory) (i : Nat) : Memory := m.filter (fun c => c.1 != i)

/-- An entry put before the first higher index. -/
def Memory.insert (m : Memory) (i : Nat) (b : Byte) : Memory :=
  match m with
  | [] => [(i, b)]
  | (a, c) :: rest => if i < a then (i, b) :: (a, c) :: rest else (a, c) :: Memory.insert rest i b

/-- One byte written (R11); writing what an unlisted index reads as removes the entry. -/
def Memory.write (m : Memory) (i : Nat) (b : Byte) : Memory :=
  if b = Memory.unlisted then Memory.erase m i else Memory.insert (Memory.erase m i) i b

/-- Every index below `n` written with one byte (R166). -/
def Memory.fill (m : Memory) (n : Nat) (b : Byte) : Memory :=
  (if b = Memory.unlisted then [] else (List.range n).map (fun i => (i, b)))
    ++ m.filter (fun c => decide (n ≤ c.1))

/-- The canonical form: indices strictly rising, no entry equal to what an unlisted index reads as. -/
abbrev Memory.wf (m : Memory) : Prop :=
  m.Pairwise (fun c d => c.1 < d.1) ∧ ∀ c ∈ m, c.2 ≠ Memory.unlisted

/-- The canonical form with every index inside `[0, n)`: then equal contents are equal lists. -/
abbrev Memory.fits (m : Memory) (n : Nat) : Prop := Memory.wf m ∧ ∀ c ∈ m, c.1 < n

/-- `FB[0 .. BUFLEN - 1]`, index 0 first (R54). -/
def snapshot (g : Geometry) (m : Memory) : List Byte := (List.range g.bufLen).map (fun i => Memory.read m i)

/-- `pix(FB, x, y)`, none out of bounds where the spec leaves it undefined (R168, D21). -/
def pix (g : Geometry) (m : Memory) (x y : Coord) : Option Nibble :=
  if inBounds g x y then some (laneOf x.toInt.toNat (Memory.read m (coordIndex g x y))) else none

/-! ### One update for each field -/

def State.setFb (m : Memory) (s : State) : State := { s with fb := m }
def State.setPhase (p : Phase) (s : State) : State := { s with phase := p }
def State.setRes (l : ResetLine) (s : State) : State := { s with res := l }
def State.setPanel (P : Panel) (s : State) : State := { s with panel := P }
/-- One event appended to TRACE (R29). -/
def State.record (e : Event) (s : State) : State := { s with trace := s.trace ++ [e] }
/-- The answer of one fallible call used up (R12). -/
def State.consume (s : State) : State := { s with oracle := s.oracle.tail, callNo := s.callNo + 1 }
/-- One answer given to the host (R30). -/
def State.reply (r : Reply) (s : State) : State := { s with answers := s.answers ++ [r] }
/-- The requests still to run. -/
def State.setRequests (rs : List (List Byte)) (s : State) : State := { s with requests := rs }

/-! ### Byte access -/

/-- A read-modify-write of one byte of FB (R57, R173); an index outside FB faults (entry 9). -/
def updateByte (i : Nat) (f : Byte → Byte) (s : State) : Host.Outcome State Fault Refusal :=
  if i < s.geom.bufLen then .next (s.setFb (Memory.write s.fb i (f (Memory.read s.fb i))))
  else .fault (.indexOutsideFramebuffer i)

/-- What follows when an outcome is a next state; a stop stays as it is. -/
def onNext (o : Host.Outcome State Fault Refusal) (f : State → Host.Outcome State Fault Refusal) :
    Host.Outcome State Fault Refusal :=
  match o with
  | .next s => f s
  | .fault r => .fault r
  | .refused r => .refused r

/-! ### Bus-side calls (00 R12) -/

/-- The answer the `k`-th coming fallible call gets, `k = 0` the next one: from the input queue, then free (R12, entry 3). -/
def State.answerAt (s : State) (k : Nat) : Answer :=
  match s.oracle[k]? with
  | some r => r
  | none => Config.freeAnswer (s.callNo + k)

/-- One call: one event, its answer, and for a reset-line call the level in RES (R12, R27). A delay has no answer
to give and never fails. -/
def performCall (c : Call) (s : State) : Answer × State :=
  match c with
  | .sendCommand bytes => (s.answerAt 0, s.consume.record (.cmd bytes (s.answerAt 0)))
  | .sendData bytes => (s.answerAt 0, s.consume.record (.data bytes (s.answerAt 0)))
  | .setLine level =>
    (s.answerAt 0, (s.consume.record (.line level (s.answerAt 0))).setRes (resAfterSetLine level (s.answerAt 0)))
  | .delay n => (.ok, s.record (.delay n))

/-- Calls in order, each a `try`: the first `err` ends them (R13, R147). -/
def runCalls : List Call → State → Answer × State
  | [], s => (.ok, s)
  | c :: rest, s =>
    match performCall c s with
    | (.ok, t) => runCalls rest t
    | (.err, t) => (.err, t)

/-! ### Ending a host operation -/

/-- TAKING THE EXCEPTION, `raise BusWriteError` (R13, R206): the operation ends, the ghost state withdraws its claims,
the host is answered, and the block is ready for the next request. FB, TRACE and RES stay as the calls left
them. There is no return operation: the host's next request is the return (R208). -/
def raiseBusWriteError (s : State) : State :=
  ((s.setPhase .uncommitted).setPanel .unknown).reply ⟨.busWriteError, none⟩

/-- `answer ok` (R30). -/
def answerOk (s : State) : State := s.reply ⟨.ok, none⟩

/-- The end of an operation that made calls: the error, or `onOk` and then the answer. -/
def finish (r : Answer × State) (onOk : State → State) : State :=
  match r.1 with
  | .ok => answerOk (onOk r.2)
  | .err => raiseBusWriteError r.2

/-- Sending one command as a host operation (R110, R143): one call, then the ghost tables. -/
def sendOne (c : Command) (s : State) : State :=
  finish (performCall (.sendCommand c.encode) s) (fun t =>
    (t.setPhase (phaseAfterSend t.neutral c.kind t.phase)).setPanel (panelAfterSend t.neutral c.kind t.panel))

end Sys2Proof.Machine
end

