-- ==== Sys2Proof/Machine/Commands.lean ====
section
/-! DEFINITION. The meanings of the 18 controller commands (40_command_encoder.md R110 to R129): as an instruction,
a command is the block sending it, which is SENDCMD of it (R143, R148; entry 6). -/

namespace Sys2Proof.Machine

/-- R112. -/
def execDisplayOff (s : State) : Host.Outcome State Fault Refusal := .next (sendOne .displayOff s)

/-- R113. -/
def execDisplayOn (s : State) : Host.Outcome State Fault Refusal := .next (sendOne .displayOn s)

/-- R114. -/
def execColumnAddress (start stop : Byte) (s : State) : Host.Outcome State Fault Refusal := .next (sendOne (.columnAddress start stop) s)

/-- R115. -/
def execRowAddress (start stop : Byte) (s : State) : Host.Outcome State Fault Refusal := .next (sendOne (.rowAddress start stop) s)

/-- R116. -/
def execContrast (value : Byte) (s : State) : Host.Outcome State Fault Refusal := .next (sendOne (.contrast value) s)

/-- R117. -/
def execRemap (value : Byte) (s : State) : Host.Outcome State Fault Refusal := .next (sendOne (.remap value) s)

/-- R118. -/
def execStartLine (value : Byte) (s : State) : Host.Outcome State Fault Refusal := .next (sendOne (.startLine value) s)

/-- R119. -/
def execDisplayOffset (value : Byte) (s : State) : Host.Outcome State Fault Refusal := .next (sendOne (.displayOffset value) s)

/-- R120. -/
def execNormalDisplay (s : State) : Host.Outcome State Fault Refusal := .next (sendOne .normalDisplay s)

/-- R121. -/
def execMuxRatio (value : Byte) (s : State) : Host.Outcome State Fault Refusal := .next (sendOne (.muxRatio value) s)

/-- R122. -/
def execPhaseLength (value : Byte) (s : State) : Host.Outcome State Fault Refusal := .next (sendOne (.phaseLength value) s)

/-- R123. -/
def execFrontClockDivider (value : Byte) (s : State) : Host.Outcome State Fault Refusal := .next (sendOne (.frontClockDivider value) s)

/-- R124. -/
def execFunctionSelectionA (value : Byte) (s : State) : Host.Outcome State Fault Refusal := .next (sendOne (.functionSelectionA value) s)

/-- R125. -/
def execSecondPrechargePeriod (value : Byte) (s : State) : Host.Outcome State Fault Refusal := .next (sendOne (.secondPrechargePeriod value) s)

/-- R126. -/
def execComDeselectVoltage (value : Byte) (s : State) : Host.Outcome State Fault Refusal := .next (sendOne (.comDeselectVoltage value) s)

/-- R127. -/
def execPrechargeVoltage (value : Byte) (s : State) : Host.Outcome State Fault Refusal := .next (sendOne (.prechargeVoltage value) s)

/-- R128. -/
def execFunctionSelectionB (value : Byte) (s : State) : Host.Outcome State Fault Refusal := .next (sendOne (.functionSelectionB value) s)

/-- R129. -/
def execCommandLock (value : Byte) (s : State) : Host.Outcome State Fault Refusal := .next (sendOne (.commandLock value) s)

end Sys2Proof.Machine
end

