-- ==== Sys2Proof/Machine/Control.lean ====
section
/-! DEFINITION. The host operations that talk to the bus side: RESET, INIT, SENDCMD, FLUSH
(41_driver_control_ops.md R140 to R146). None is guarded by `phase` (D23). -/

namespace Sys2Proof.Machine

/-- RESET (R140): `PANEL` is unknown on every exit; six calls; `phase` is `Reset` when all answered `ok`. -/
def execReset (s : State) : Host.Outcome State Fault Refusal :=
  .next (finish (runCalls resetCalls (s.setPanel .unknown)) (fun t => t.setPhase .reset))

/-- INIT (R141): the 18 commands of `INIT_SEQ` (R142); `phase` before the call decides `phase` after (R26). -/
def execInit (s : State) : Host.Outcome State Fault Refusal :=
  .next (finish (runCalls (initCalls s.geom) (s.setPanel .unknown)) (fun t => t.setPhase (phaseAfterInit s.phase)))

/-- SENDCMD (R143): the command its port triple carries; a selector outside the 18 is refused (R91, D18). -/
def execSendcmd (sel a b : Byte) (s : State) : Host.Outcome State Fault Refusal :=
  match Command.ofPort sel a b with
  | some c => .next (sendOne c s)
  | none => .refused (.selectorOutsideClosedSet sel)

/-- FLUSH (R144): the whole buffer in one data call. -/
def execFlush (s : State) : Host.Outcome State Fault Refusal :=
  .next (finish (performCall (.sendData (snapshot s.geom s.fb)) s) (fun t =>
    t.setPanel (panelAfterFlush s.geom s.phase (snapshot s.geom s.fb))))

end Sys2Proof.Machine
end

