-- ==== Sys2Proof/Machine/Drawing.lean ====
section
/-! DEFINITION. The drawing operations: DRAWPIXEL, CLEAR, BBOX, DRAWBATCH (42_drawing_ops.md R164 to R167). They
touch no bus and emit no event (R170). -/

namespace Sys2Proof.Machine

/-- The body of DRAWPIXEL without its answer (R164): in bounds, one lane of one byte; otherwise nothing (R58). -/
def drawPixel (p : Pixel) (s : State) : Host.Outcome State Fault Refusal :=
  if inBounds s.geom p.x p.y then
    updateByte (coordIndex s.geom p.x p.y) (updateLane p.x.toInt.toNat p.v) s
  else .next s

/-- The entries of a batch in sequence order (R165, D15). -/
def drawAll : List Pixel → State → Host.Outcome State Fault Refusal
  | [], s => .next s
  | p :: rest, s => onNext (drawPixel p s) (drawAll rest)

/-- DRAWPIXEL (R164). -/
def execDrawpixel (x y : Coord) (v : Nibble) (s : State) : Host.Outcome State Fault Refusal :=
  onNext (drawPixel ⟨x, y, v⟩ s) (fun t => .next (answerOk t))

/-- CLEAR (R166): every byte of FB. -/
def execClear (v : Nibble) (s : State) : Host.Outcome State Fault Refusal :=
  .next (answerOk (s.setFb (Memory.fill s.fb s.geom.bufLen (clearByte v))))

/-- BBOX (R167, D16): the answer carries `(0, 0, W, H)`. -/
def execBbox (s : State) : Host.Outcome State Fault Refusal :=
  .next (s.reply ⟨.ok, some ⟨0, 0, s.geom.W, s.geom.H⟩⟩)

/-- DRAWBATCH (R165). -/
def execDrawbatch (batch : List Pixel) (s : State) : Host.Outcome State Fault Refusal :=
  onNext (drawAll batch s) (fun t => .next (answerOk t))

end Sys2Proof.Machine
end

