-- ==== Sys2Proof/Machine/Dispatch.lean ====
section
/-! DEFINITION. One arm for each constructor of Instr. -/

namespace Sys2Proof.Machine

def exec (i : Instr) (s : State) : Host.Outcome State Fault Refusal :=
  match i with
  -- the 18 controller commands
  | .displayOff => Sys2Proof.Machine.execDisplayOff s
  | .displayOn => Sys2Proof.Machine.execDisplayOn s
  | .columnAddress start stop => Sys2Proof.Machine.execColumnAddress start stop s
  | .rowAddress start stop => Sys2Proof.Machine.execRowAddress start stop s
  | .contrast value => Sys2Proof.Machine.execContrast value s
  | .remap value => Sys2Proof.Machine.execRemap value s
  | .startLine value => Sys2Proof.Machine.execStartLine value s
  | .displayOffset value => Sys2Proof.Machine.execDisplayOffset value s
  | .normalDisplay => Sys2Proof.Machine.execNormalDisplay s
  | .muxRatio value => Sys2Proof.Machine.execMuxRatio value s
  | .phaseLength value => Sys2Proof.Machine.execPhaseLength value s
  | .frontClockDivider value => Sys2Proof.Machine.execFrontClockDivider value s
  | .functionSelectionA value => Sys2Proof.Machine.execFunctionSelectionA value s
  | .secondPrechargePeriod value => Sys2Proof.Machine.execSecondPrechargePeriod value s
  | .comDeselectVoltage value => Sys2Proof.Machine.execComDeselectVoltage value s
  | .prechargeVoltage value => Sys2Proof.Machine.execPrechargeVoltage value s
  | .functionSelectionB value => Sys2Proof.Machine.execFunctionSelectionB value s
  | .commandLock value => Sys2Proof.Machine.execCommandLock value s
  -- the 8 host operations
  | .reset => Sys2Proof.Machine.execReset s
  | .init => Sys2Proof.Machine.execInit s
  | .sendcmd sel a b => Sys2Proof.Machine.execSendcmd sel a b s
  | .flush => Sys2Proof.Machine.execFlush s
  | .drawpixel x y v => Sys2Proof.Machine.execDrawpixel x y v s
  | .clear v => Sys2Proof.Machine.execClear v s
  | .bbox => Sys2Proof.Machine.execBbox s
  | .drawbatch batch => Sys2Proof.Machine.execDrawbatch batch s

end Sys2Proof.Machine
end

