-- ==== Sys2Proof/Machine/Step.lean ====
section
/-! DEFINITION. One step is one host operation, from request to answer (00_scope.md R14, R15). -/

namespace Sys2Proof.Machine

/-- The next pending request is decoded and run. A record that is no request is refused and stays (entry 8). With no
request pending the run has ended and nothing changes (R15, entry 5). -/
def step (s : State) : Host.Outcome State Fault Refusal :=
  match s.requests with
  | [] => .next s
  | record :: rest =>
    match decode record with
    | .ok (i, _) => exec i (s.setRequests rest)
    | .error why => .refused (.notARequest why)

/-- A table word put at the head of the request queue, where `step` takes its next request (entry 20). -/
def State.withFetchWord (s : State) (nbits w : Nat) : State :=
  s.setRequests (tableBytes nbits w :: s.requests)

end Sys2Proof.Machine
end

