-- ==== Sys2Proof/Machine/Controller.lean ====
section
/-! DEFINITION. The controller's configuration registers as far as the spec goes (10_state.md R34): which command writes
which, and what the block's calls last wrote to each, read off TRACE. They are outside the block, write-only and
opaque (R4, R34, R35, D25), so no field of State holds them and no operation reads this view (entry 14). -/

namespace Sys2Proof.Machine

/-- The 17 registers of R34's table; display off and display on write one on-off state. -/
inductive ControllerRegister where
  | displayOnOff | columnRange | rowRange | contrast | remap | startLine | displayOffset | displayMode | muxRatio
  | phaseLength | frontClockDivider | functionSelectionA | secondPrechargePeriod | comDeselectVoltage
  | prechargeVoltage | functionSelectionB | commandLock
deriving DecidableEq, Repr

/-- The register a command writes (R34). -/
def CommandKind.register : CommandKind → ControllerRegister
  | .displayOff => .displayOnOff
  | .displayOn => .displayOnOff
  | .columnAddress => .columnRange
  | .rowAddress => .rowRange
  | .contrast => .contrast
  | .remap => .remap
  | .startLine => .startLine
  | .displayOffset => .displayOffset
  | .normalDisplay => .displayMode
  | .muxRatio => .muxRatio
  | .phaseLength => .phaseLength
  | .frontClockDivider => .frontClockDivider
  | .functionSelectionA => .functionSelectionA
  | .secondPrechargePeriod => .secondPrechargePeriod
  | .comDeselectVoltage => .comDeselectVoltage
  | .prechargeVoltage => .prechargeVoltage
  | .functionSelectionB => .functionSelectionB
  | .commandLock => .commandLock

/-- What is known of the last write to a register after one more event: a delivered command writes its register; a
failed call or a reset-line call leaves nothing known (R34, R60; U2, U5). -/
def lastWriteAfter (r : ControllerRegister) (known : Option Command) (e : Event) : Option Command :=
  match e with
  | .cmd bytes .ok =>
    match Command.decode bytes with
    | .ok (c, _) => if CommandKind.register c.kind = r then some c else known
    | .error _ => known
  | .cmd _ .err => none
  | .data _ .ok => known
  | .data _ .err => none
  | .line _ _ => none
  | .delay _ => known

/-- The command that last wrote a register, none where the spec gives no value (R34: no reset values). -/
def Controller.lastWrite (r : ControllerRegister) (trace : List Event) : Option Command :=
  trace.foldl (lastWriteAfter r) none

end Sys2Proof.Machine
end

