-- ==== Sys2Proof/WellFormed.lean ====
section
/-! DEFINITION. Well-formed instructions. The types carry every other bound (bytes, nibbles, 32-bit coordinates);
the one check left is R91's: the selector of SENDCMD is one of the 18 opcodes. -/

namespace Sys2Proof

/-- SENDCMD names one of the 18 commands (R85, R91). Every other instruction is well formed as typed. -/
def Instr.WellFormed : Instr → Bool
  | .sendcmd sel _ _ => (CommandKind.ofOpcode sel).isSome
  | .displayOff | .displayOn | .columnAddress _ _ | .rowAddress _ _ | .contrast _ | .remap _ | .startLine _
  | .displayOffset _ | .normalDisplay | .muxRatio _ | .phaseLength _ | .frontClockDivider _
  | .functionSelectionA _ | .secondPrechargePeriod _ | .comDeselectVoltage _ | .prechargeVoltage _
  | .functionSelectionB _ | .commandLock _ | .reset | .init | .flush | .drawpixel _ _ _ | .clear _ | .bbox
  | .drawbatch _ => true

end Sys2Proof
end

