-- ==== Sys2Proof/Safety.lean ====
section
/-! DEFINITION. The terms in which claims are stated: the invariants of the state, what a TRACE shows, the premise
PANEL-MAP (43_panel_address_decoder.md R182), programs as lists of instructions, and the outcome of sending a
command. The machine reads none of them. -/

namespace Sys2Proof.Machine

/-! ### The framebuffer -/

/-- FB is in canonical form with every index in `[0, BUFLEN)` (R21, R51). -/
abbrev FbInv (s : State) : Prop := Memory.fits s.fb s.geom.bufLen

/-! ### What the block may put on the bus -/

/-- The three formats written out (R80): the opcode, then no, one or two operand bytes. -/
def bytesOfFormat (f : Format) (opcode a b : Byte) : List Byte :=
  match f with
  | .c0 => [opcode]
  | .c1 => [opcode, a]
  | .c2 => [opcode, a, b]

/-- The byte lists of INIT's 18 commands, as R142's table writes them. -/
def initBytes (g : Geometry) : List (List Byte) :=
  [[0xAE], [0x15, 0x00, BitVec.ofNat 8 (g.W - 1)], [0x75, 0x00, BitVec.ofNat 8 (g.H - 1)],
   [0x81, 0x80], [0xA0, 0x51], [0xA1, 0x00], [0xA2, 0x00], [0xA4], [0xA8, 0x7F], [0xB1, 0xF1], [0xB3, 0x00],
   [0xAB, 0x01], [0xB6, 0x0F], [0xBE, 0x0F], [0xBC, 0x08], [0xD5, 0x62], [0xFD, 0x12], [0xAF]]

/-- The 18 events of an INIT that succeeds (R141, R142). -/
def initEvents (g : Geometry) : List Event := (initBytes g).map (fun bytes => .cmd bytes .ok)

/-- The 6 events of a RESET that succeeds (R140). -/
def resetEvents : List Event :=
  [.line .high .ok, .delay 100, .line .low .ok, .delay 100, .line .high .ok, .delay 100]

/-- An event the block may emit: a command list is the encoding of one of the 18 commands (R85, R110), a data list is
one whole buffer (R87), a delay is 100 (R211). -/
def EventAllowed (g : Geometry) : Event → Prop
  | .cmd bytes _ => ∃ c : Command, bytes = c.encode
  | .data bytes _ => bytes.length = g.bufLen
  | .line _ _ => True
  | .delay n => n = 100

/-- Every event of TRACE is one the block may emit. -/
abbrev TraceDisciplined (s : State) : Prop := ∀ e ∈ s.trace, EventAllowed s.geom e

/-- The answer an event carries; a delay carries none (R12). -/
def Event.answer? : Event → Option Answer
  | .cmd _ r => some r
  | .data _ r => some r
  | .line _ r => some r
  | .delay _ => none

/-- `RES` after one more event (R27). -/
def resAfterEvent (l : ResetLine) : Event → ResetLine
  | .line level .ok => match level with | .high => .high | .low => .low
  | .line _ .err => .unknown
  | .cmd _ _ => l
  | .data _ _ => l
  | .delay _ => l

/-- `RES` is what the reset-line calls of TRACE say (R27). -/
abbrev ResFollowsTrace (s : State) : Prop := s.res = s.trace.foldl resAfterEvent .unknown

/-! ### What a TRACE shows of the controller (43 R182, R184) -/

/-- A delivered neutral command (R184). -/
def neutralEvent (neutral : List CommandKind) (e : Event) : Prop :=
  ∃ c : Command, e = .cmd c.encode .ok ∧ c.kind ∈ neutral

/-- A delivered complete data block (R182). -/
def blockEvent (g : Geometry) (e : Event) : Prop := ∃ d, e = .data d .ok ∧ d.length = g.bufLen

/-- TRACE has a successful RESET and after it nothing but delivered neutral commands, complete data blocks and commands
of INIT_SEQ (entry 22). -/
def ResetDone (g : Geometry) (neutral : List CommandKind) (trace : List Event) : Prop :=
  ∃ pre post, trace = pre ++ resetEvents ++ post ∧
    ∀ e ∈ post, neutralEvent neutral e ∨ blockEvent g e ∨ e ∈ initEvents g

/-- TRACE has a successful RESET, then a successful INIT, and since then nothing but delivered neutral commands and
complete data blocks: the condition of PANEL-MAP (R182). -/
def ControllerReady (g : Geometry) (neutral : List CommandKind) (trace : List Event) : Prop :=
  ∃ pre post, trace = pre ++ initEvents g ++ post ∧ ResetDone g neutral pre ∧
    ∀ e ∈ post, neutralEvent neutral e ∨ blockEvent g e

/-- Block `d` is the last complete data block a ready controller received, followed by neutral commands only. -/
def LastBlockShown (g : Geometry) (neutral : List CommandKind) (trace : List Event) (d : List Byte) : Prop :=
  ∃ pre post, trace = pre ++ [.data d .ok] ++ post ∧ ControllerReady g neutral pre ∧ d.length = g.bufLen ∧
    ∀ e ∈ post, neutralEvent neutral e

/-- PANEL-MAP (R182, D12), a named premise and never a theorem: `memory` is what the controller's display memory holds
at column `x`, row `y`, after the bus history `trace`. -/
def PanelMap (g : Geometry) (neutral : List CommandKind) (memory : List Event → Nat → Nat → Nibble) : Prop :=
  ∀ trace d, LastBlockShown g neutral trace d →
    ∀ x y, x < g.W → y < g.H → memory trace x y = unpackAt g d x y

/-- The ghost values say no more than TRACE shows: `phase`, `RES` and `PANEL` against the bus history (R26, R27, R183). -/
structure GhostHistory (s : State) : Prop where
  resetDone : s.phase = .reset → ResetDone s.geom s.neutral s.trace
  ready : s.phase = .initialized → ControllerReady s.geom s.neutral s.trace
  lineHigh : s.phase ≠ .uncommitted → s.res = .high
  shown : ∀ rows, s.panel = .image rows → s.phase = .initialized ∧
    ∃ d, LastBlockShown s.geom s.neutral s.trace d ∧ rows = unpack s.geom d

/-! ### Comparing states -/

/-- Equal but for the four ghost values `phase`, `RES`, `PANEL`, `TRACE` (R20). -/
structure SameButGhost (s t : State) : Prop where
  geom : s.geom = t.geom
  neutral : s.neutral = t.neutral
  fb : s.fb = t.fb
  requests : s.requests = t.requests
  oracle : s.oracle = t.oracle
  callNo : s.callNo = t.callNo
  answers : s.answers = t.answers

/-- Two outcomes with equal answers and FB that appended the same events to `s` and to `t`; two stops are the same
stop. -/
def SameOutputs (s t : State) : Host.Outcome State Fault Refusal → Host.Outcome State Fault Refusal → Prop
  | .next s', .next t' =>
    SameButGhost s' t' ∧ ∃ events, s'.trace = s.trace ++ events ∧ t'.trace = t.trace ++ events
  | .fault a, .fault b => a = b
  | .refused a, .refused b => a = b
  | .next _, .fault _ => False
  | .next _, .refused _ => False
  | .fault _, .next _ => False
  | .fault _, .refused _ => False
  | .refused _, .next _ => False
  | .refused _, .fault _ => False

/-- An outcome with one change made to its next state. -/
def mapNext (f : State → State) (o : Host.Outcome State Fault Refusal) : Host.Outcome State Fault Refusal :=
  onNext o (fun t => .next (f t))

/-! ### Kinds of instruction -/

/-- DRAWPIXEL, CLEAR, DRAWBATCH: the writers of FB (R21). -/
def Instr.draws : Instr → Bool
  | .drawpixel _ _ _ | .clear _ | .drawbatch _ => true
  | .displayOff | .displayOn | .columnAddress _ _ | .rowAddress _ _ | .contrast _ | .remap _ | .startLine _
  | .displayOffset _ | .normalDisplay | .muxRatio _ | .phaseLength _ | .frontClockDivider _
  | .functionSelectionA _ | .secondPrechargePeriod _ | .comDeselectVoltage _ | .prechargeVoltage _
  | .functionSelectionB _ | .commandLock _ | .reset | .init | .sendcmd _ _ _ | .flush | .bbox => false

/-- The command an instruction sends by itself: a controller command, or SENDCMD of a port triple (R143). -/
def Instr.sends? : Instr → Option Command
  | .displayOff => some .displayOff
  | .displayOn => some .displayOn
  | .columnAddress a b => some (.columnAddress a b)
  | .rowAddress a b => some (.rowAddress a b)
  | .contrast a => some (.contrast a)
  | .remap a => some (.remap a)
  | .startLine a => some (.startLine a)
  | .displayOffset a => some (.displayOffset a)
  | .normalDisplay => some .normalDisplay
  | .muxRatio a => some (.muxRatio a)
  | .phaseLength a => some (.phaseLength a)
  | .frontClockDivider a => some (.frontClockDivider a)
  | .functionSelectionA a => some (.functionSelectionA a)
  | .secondPrechargePeriod a => some (.secondPrechargePeriod a)
  | .comDeselectVoltage a => some (.comDeselectVoltage a)
  | .prechargeVoltage a => some (.prechargeVoltage a)
  | .functionSelectionB a => some (.functionSelectionB a)
  | .commandLock a => some (.commandLock a)
  | .sendcmd sel a b => Command.ofPort sel a b
  | .reset | .init | .flush | .drawpixel _ _ _ | .clear _ | .bbox | .drawbatch _ => none

/-! ### Outcomes -/

/-- The state after sending `bytes`, the encoding of a command of variant `k`, as the tables of R26 and R183 write it
out: one `Cmd` event, one answer used, one answer given, everything else unchanged. -/
def afterSending (k : CommandKind) (bytes : List Byte) (s : State) : State :=
  match s.answerAt 0 with
  | .ok =>
    { s with
      trace := s.trace ++ [.cmd bytes .ok]
      oracle := s.oracle.tail
      callNo := s.callNo + 1
      phase := if k ∈ s.neutral then s.phase else .uncommitted
      panel := if k ∈ s.neutral then s.panel else .unknown
      answers := s.answers ++ [⟨.ok, none⟩] }
  | .err =>
    { s with
      trace := s.trace ++ [.cmd bytes .err]
      oracle := s.oracle.tail
      callNo := s.callNo + 1
      phase := .uncommitted
      panel := .unknown
      answers := s.answers ++ [⟨.busWriteError, none⟩] }

/-- Instructions run one after another, stopping at the first stop. -/
def runAll : List Instr → State → Host.Outcome State Fault Refusal
  | [], s => .next s
  | i :: rest, s => onNext (exec i s) (runAll rest)

/-- SENDCMDs run one after another, up to and with the first that answers `BusWriteError` (R93 a). -/
def sendUntilError : List Command → State → Host.Outcome State Fault Refusal
  | [], s => .next s
  | c :: rest, s =>
    onNext (exec (Instr.ofCommand c) s) (fun t =>
      if t.answers.getLast? = some ⟨.busWriteError, none⟩ then .next t else sendUntilError rest t)

end Sys2Proof.Machine
end

