-- ==== Sys2Proof/Certificates/Slice0/Obligations.lean ====
section
/-! DEFINITION. The statements for the provers. Rules are of spec/, entries of notes/assumptions/. -/

open Sys2Proof Sys2Proof.Machine

/-! ### Encodings -/

/-- Words written out from 30_encoding.md R84 (opcodes, opcode first) and R90 (select codes) decode to what they stand
for. Where operand bytes follow a select code, their layout is the model's choice (entry 4). -/
def Obligations.TableWordsDecode : Prop :=
  decodeTableWord 8 0b10101110 = some .displayOff ∧
  decodeTableWord 16 0xFF81 = some (.contrast 0xFF) ∧
  decodeTableWord 24 0x2F1015 = some (.columnAddress 0x10 0x2F) ∧
  decodeTableWord 8 0b000 = some .reset ∧
  decodeTableWord 8 0b001 = some .init ∧
  decodeTableWord 32 0x3F007502 = some (.sendcmd 0x75 0x00 0x3F) ∧
  decodeTableWord 8 0b011 = some .flush ∧
  decodeTableWord 80 0x09000000030000000504 = some (.drawpixel 5 3 9) ∧
  decodeTableWord 16 0x0705 = some (.clear 7) ∧
  decodeTableWord 8 0b110 = some .bbox ∧
  decodeTableWord 8 0b111 = some (.drawbatch [])

/-- Decoding the bytes of any instruction, whatever follows them, gives the instruction and what follows. The byte form
of host operations is the model's choice (entry 4). -/
def Obligations.DecodeOfEncode : Prop :=
  ∀ (i : Instr) (rest : List Byte), decode (encode i ++ rest) = .ok (i, rest)

/-- Each word has one meaning: the bytes an instruction was decoded from are its encoding (entry 4). -/
def Obligations.EncodeOfDecode : Prop :=
  ∀ (bytes : List Byte) (i : Instr) (rest : List Byte), decode bytes = .ok (i, rest) → bytes = encode i ++ rest

/-- 30_encoding.md R82: every operand byte is copied bit for bit into its position, for all 256 values, and is emitted
unchanged. The second clause runs the command row itself, which as an instruction is the block sending that command: the
model's reading (entry 6). -/
def Obligations.OperandBytesAreCopied : Prop :=
  ∀ (k : CommandKind) (a b : Byte),
    (k.build a b).encode = bytesOfFormat k.format k.opcode a b ∧
    ∀ s : State, ∃ t, exec (Instr.ofCommand (k.build a b)) s = .next t ∧
      t.trace = s.trace ++ [.cmd (bytesOfFormat k.format k.opcode a b) (s.answerAt 0)]

/-- The bytes of every command, from the Encoding clauses of 40_command_encoder.md. -/
def Obligations.CommandByteTable : Prop :=
  ∀ a b : Byte,
    Command.encode .displayOff = [0xAE] ∧ Command.encode .displayOn = [0xAF] ∧
    Command.encode (.columnAddress a b) = [0x15, a, b] ∧ Command.encode (.rowAddress a b) = [0x75, a, b] ∧
    Command.encode (.contrast a) = [0x81, a] ∧ Command.encode (.remap a) = [0xA0, a] ∧
    Command.encode (.startLine a) = [0xA1, a] ∧ Command.encode (.displayOffset a) = [0xA2, a] ∧
    Command.encode .normalDisplay = [0xA4] ∧ Command.encode (.muxRatio a) = [0xA8, a] ∧
    Command.encode (.phaseLength a) = [0xB1, a] ∧ Command.encode (.frontClockDivider a) = [0xB3, a] ∧
    Command.encode (.functionSelectionA a) = [0xAB, a] ∧ Command.encode (.secondPrechargePeriod a) = [0xB6, a] ∧
    Command.encode (.comDeselectVoltage a) = [0xBE, a] ∧ Command.encode (.prechargeVoltage a) = [0xBC, a] ∧
    Command.encode (.functionSelectionB a) = [0xD5, a] ∧ Command.encode (.commandLock a) = [0xFD, a]

/-- 40_command_encoder.md section 3, which the spec derives: 1 to 3 bytes, the first an opcode, the decoder recovers the
command, two commands never share an encoding, and only encodings decode. -/
def Obligations.CommandDecoderRecovers : Prop :=
  (∀ (c : Command) (rest : List Byte),
    1 ≤ c.encode.length ∧ c.encode.length ≤ 3 ∧ (∃ k : CommandKind, c.encode.head? = some k.opcode) ∧
    Command.decode (c.encode ++ rest) = .ok (c, rest)) ∧
  (∀ c c' : Command, c.encode = c'.encode → c = c') ∧
  (∀ (bytes : List Byte) (c : Command) (rest : List Byte),
    Command.decode bytes = .ok (c, rest) → bytes = c.encode ++ rest)

/-- The count of 40_command_encoder.md section 3, which the spec derives: `3 + 13 * 256 + 2 * 65536`. -/
def Obligations.CommandEncodingsCount : Prop :=
  (Set.range Command.encode).ncard = 3 + 13 * 256 + 2 * 65536

/-- 30_encoding.md section 3 and 4: a byte is an opcode exactly when it is a variant's, and 238 bytes are none. -/
def Obligations.OpcodesAreAClosedSet : Prop :=
  (∀ (b : Byte) (k : CommandKind), CommandKind.ofOpcode b = some k ↔ b = k.opcode) ∧
  ((List.range 256).filter (fun n => (CommandKind.ofOpcode (BitVec.ofNat 8 n)).isNone)).length = 238

/-! ### Construction and steps -/

/-- 70_reset_and_hazards.md R230, for every geometry. The values of RES, PANEL and TRACE are the spec's own decisions D8,
D12, D9 and D27 (entries 10 and 11). -/
def Obligations.ConstructionState : Prop :=
  ∀ (g : Geometry) (neutral : List CommandKind),
    (∀ i < g.bufLen, Memory.read (State.construct g neutral).fb i = 0x00) ∧
    (snapshot g (State.construct g neutral).fb).length = g.W * g.H / 2 ∧
    (∀ x y : Coord, inBounds g x y = true → pix g (State.construct g neutral).fb x y = some 0) ∧
    (State.construct g neutral).phase = .uncommitted ∧
    (State.construct g neutral).res = .unknown ∧
    (State.construct g neutral).panel = .unknown ∧
    (State.construct g neutral).trace = []

/-- Construction, the reset state among its cases (entry 1), meets every invariant stated below, in the
model's terms (entries 10, 11 and 22). -/
def Obligations.ConstructionMeetsInvariants : Prop :=
  State.reset = State.construct Config.G128x128 Config.neutralDefault ∧
  ∀ (g : Geometry) (neutral : List CommandKind),
    FbInv (State.construct g neutral) ∧ GhostHistory (State.construct g neutral) ∧
    TraceDisciplined (State.construct g neutral) ∧ ResFollowsTrace (State.construct g neutral)

/-- A step runs the decoded request: the record leaves the queue and the instruction runs (00_scope.md R14, R15; the
queue is the model's, entry 5). -/
def Obligations.StepRunsDecodedRequest : Prop :=
  ∀ (s : State) (record : List Byte) (rest : List (List Byte)) (i : Instr) (left : List Byte),
    s.requests = record :: rest → decode record = .ok (i, left) → step s = exec i { s with requests := rest }

/-- A table word put where the next request is taken runs as exactly its instruction (entry 20). -/
def Obligations.StepRunsTableWord : Prop :=
  ∀ (s : State) (nbits w : Nat) (i : Instr), decodeTableWord nbits w = some i →
    step (s.withFetchWord nbits w) = exec i s

/-- With no request pending nothing changes; a record that is no request is refused by name (entries 5 and 8). -/
def Obligations.StepWithoutARequest : Prop :=
  ∀ s : State,
    (s.requests = [] → step s = .next s) ∧
    (∀ record rest why, s.requests = record :: rest → decode record = .error why →
      step s = .refused (.notARequest why))

/-- Every well-formed instruction completes in every state, and no instruction and no step ever faults: no rule forms a
buffer index outside FB (20_memory.md R51, R58). -/
def Obligations.WellFormedInstructionsComplete : Prop :=
  (∀ (i : Instr) (s : State), i.WellFormed = true → ∃ t, exec i s = .next t) ∧
  (∀ (i : Instr) (s : State) (f : Fault), exec i s ≠ .fault f) ∧
  (∀ (s : State) (f : Fault), step s ≠ .fault f)

/-! ### Commands and SENDCMD -/

/-- The three commands without operand, run as SENDCMD of them (R143; entry 6): the whole next state. -/
def Obligations.CommandsWithoutOperandSend : Prop :=
  ∀ s : State,
    exec .displayOff s = .next (afterSending .displayOff [0xAE] s) ∧
    exec .displayOn s = .next (afterSending .displayOn [0xAF] s) ∧
    exec .normalDisplay s = .next (afterSending .normalDisplay [0xA4] s)

/-- The 13 commands with one operand byte, run as SENDCMD of them (R143; entry 6): the whole next state. -/
def Obligations.CommandsWithOneOperandSend : Prop :=
  ∀ (v : Byte) (s : State),
    exec (.contrast v) s = .next (afterSending .contrast [0x81, v] s) ∧
    exec (.remap v) s = .next (afterSending .remap [0xA0, v] s) ∧
    exec (.startLine v) s = .next (afterSending .startLine [0xA1, v] s) ∧
    exec (.displayOffset v) s = .next (afterSending .displayOffset [0xA2, v] s) ∧
    exec (.muxRatio v) s = .next (afterSending .muxRatio [0xA8, v] s) ∧
    exec (.phaseLength v) s = .next (afterSending .phaseLength [0xB1, v] s) ∧
    exec (.frontClockDivider v) s = .next (afterSending .frontClockDivider [0xB3, v] s) ∧
    exec (.functionSelectionA v) s = .next (afterSending .functionSelectionA [0xAB, v] s) ∧
    exec (.secondPrechargePeriod v) s = .next (afterSending .secondPrechargePeriod [0xB6, v] s) ∧
    exec (.comDeselectVoltage v) s = .next (afterSending .comDeselectVoltage [0xBE, v] s) ∧
    exec (.prechargeVoltage v) s = .next (afterSending .prechargeVoltage [0xBC, v] s) ∧
    exec (.functionSelectionB v) s = .next (afterSending .functionSelectionB [0xD5, v] s) ∧
    exec (.commandLock v) s = .next (afterSending .commandLock [0xFD, v] s)

/-- The two address range commands, run as SENDCMD of them (R143; entry 6): the whole next state. -/
def Obligations.AddressRangeCommandsSend : Prop :=
  ∀ (start stop : Byte) (s : State),
    exec (.columnAddress start stop) s = .next (afterSending .columnAddress [0x15, start, stop] s) ∧
    exec (.rowAddress start stop) s = .next (afterSending .rowAddress [0x75, start, stop] s)

/-- SENDCMD of a port triple whose selector is a variant's opcode (R91, R143): the whole next state; `a` is ignored for
format C0 and `b` for C0 and C1. -/
def Obligations.SendcmdSendsPortCommand : Prop :=
  ∀ (k : CommandKind) (a b : Byte) (s : State),
    exec (.sendcmd k.opcode a b) s = .next (afterSending k (bytesOfFormat k.format k.opcode a b) s)

/-- A selector that is no opcode is refused (R91; the spec's own decision D18, entry 7). -/
def Obligations.SendcmdRefusesOtherSelectors : Prop :=
  ∀ (sel a b : Byte) (s : State), (∀ k : CommandKind, sel ≠ k.opcode) →
    exec (.sendcmd sel a b) s = .refused (.selectorOutsideClosedSet sel)

/-- 40_command_encoder.md R111: encoding never fails; sending raises the bus write error exactly when its one call
answers `err`. Sending a command is here its row as an instruction with an answer to the host, the model's reading
(entry 6). -/
def Obligations.SendingRaisesIffItsCallFails : Prop :=
  ∀ (c : Command) (s : State),
    c.encode ≠ [] ∧
    ∃ t, exec (Instr.ofCommand c) s = .next t ∧ t.trace = s.trace ++ [.cmd c.encode (s.answerAt 0)] ∧
      (t.answers = s.answers ++ [⟨.busWriteError, none⟩] ↔ s.answerAt 0 = .err) ∧
      (t.answers = s.answers ++ [⟨.ok, none⟩] ↔ s.answerAt 0 = .ok)

/-! ### RESET and INIT -/

/-- RESET with its three reset-line calls answered `ok` (R140): the whole next state. -/
def Obligations.ResetPulsesTheLine : Prop :=
  ∀ s : State, (∀ k < 3, s.answerAt k = .ok) →
    exec .reset s = .next
      { s with
        phase := .reset
        res := .high
        panel := .unknown
        trace := s.trace ++
          [.line .high .ok, .delay 100, .line .low .ok, .delay 100, .line .high .ok, .delay 100]
        oracle := s.oracle.drop 3
        callNo := s.callNo + 3
        answers := s.answers ++ [⟨.ok, none⟩] }

/-- RESET whose call 1, 3 or 5 is the first to answer `err` (R140, R201): the remaining calls are not made. -/
def Obligations.ResetStopsAtFailingCall : Prop :=
  ∀ (s : State) (k : Nat), k < 3 → (∀ j < k, s.answerAt j = .ok) → s.answerAt k = .err →
    exec .reset s = .next
      { s with
        phase := .uncommitted
        res := .unknown
        panel := .unknown
        trace := s.trace ++
          (match k with
            | 0 => [.line .high .err]
            | 1 => [.line .high .ok, .delay 100, .line .low .err]
            | _ => [.line .high .ok, .delay 100, .line .low .ok, .delay 100, .line .high .err])
        oracle := s.oracle.drop (k + 1)
        callNo := s.callNo + (k + 1)
        answers := s.answers ++ [⟨.busWriteError, none⟩] }

/-- INIT with its 18 calls answered `ok` (R141, R142): exactly the 18 command lists of R142's table, in order; the
whole next state. That `phase` stays `Uncommitted` without a RESET is the spec's own decision D24 (entry 10). -/
def Obligations.InitSendsItsSequence : Prop :=
  ∀ s : State, (∀ k < 18, s.answerAt k = .ok) →
    exec .init s = .next
      { s with
        phase := if s.phase = .uncommitted then .uncommitted else .initialized
        panel := .unknown
        trace := s.trace ++ (initBytes s.geom).map (fun bytes => .cmd bytes .ok)
        oracle := s.oracle.drop 18
        callNo := s.callNo + 18
        answers := s.answers ++ [⟨.ok, none⟩] }

/-- INIT whose step `k + 1` is the first to answer `err` (R141, R206): steps 1 to `k` were sent, that one was sent, no
later one; the whole next state. -/
def Obligations.InitStopsAtFailingStep : Prop :=
  ∀ (s : State) (k : Nat), k < 18 → (∀ j < k, s.answerAt j = .ok) → s.answerAt k = .err →
    exec .init s = .next
      { s with
        phase := .uncommitted
        panel := .unknown
        trace := s.trace ++ ((initBytes s.geom).take k).map (fun bytes => .cmd bytes .ok) ++
          [.cmd ((initBytes s.geom).getD k []) .err]
        oracle := s.oracle.drop (k + 1)
        callNo := s.callNo + (k + 1)
        answers := s.answers ++ [⟨.busWriteError, none⟩] }

/-- INIT is, on the bus, its 18 commands sent as SENDCMDs that stop at the first failure (30_encoding.md R93 a): same
events, same FB, same reset line, same answers used, same final result. The SENDCMDs are run as the command rows, which
by the model's reading are SENDCMD of that command (entry 6). -/
def Obligations.InitIsEighteenSendcmds : Prop :=
  ∀ s : State, ∃ t u, exec .init s = .next t ∧ sendUntilError (initSeq s.geom) s = .next u ∧
    t.trace = u.trace ∧ t.fb = u.fb ∧ t.res = u.res ∧ t.oracle = u.oracle ∧ t.callNo = u.callNo ∧
    t.requests = u.requests ∧ t.answers.getLast? = u.answers.getLast?

/-- What a successful INIT last wrote to each of the controller's 17 registers: the column "value INIT writes" of
10_state.md R34's table. The view `Controller.lastWrite` is the model's (entry 14). -/
def Obligations.InitProgramsEveryRegister : Prop :=
  ∀ s : State, (∀ k < 18, s.answerAt k = .ok) → ∃ t, exec .init s = .next t ∧
    ∀ r : ControllerRegister, Controller.lastWrite r t.trace = some (match r with
      | .displayOnOff => .displayOn
      | .columnRange => .columnAddress 0x00 (BitVec.ofNat 8 (s.geom.W - 1))
      | .rowRange => .rowAddress 0x00 (BitVec.ofNat 8 (s.geom.H - 1))
      | .contrast => .contrast 0x80
      | .remap => .remap 0x51
      | .startLine => .startLine 0x00
      | .displayOffset => .displayOffset 0x00
      | .displayMode => .normalDisplay
      | .muxRatio => .muxRatio 0x7F
      | .phaseLength => .phaseLength 0xF1
      | .frontClockDivider => .frontClockDivider 0x00
      | .functionSelectionA => .functionSelectionA 0x01
      | .secondPrechargePeriod => .secondPrechargePeriod 0x0F
      | .comDeselectVoltage => .comDeselectVoltage 0x0F
      | .prechargeVoltage => .prechargeVoltage 0x08
      | .functionSelectionB => .functionSelectionB 0x62
      | .commandLock => .commandLock 0x12)

/-! ### FLUSH -/

/-- FLUSH (R144): one data call with `FB[0 .. BUFLEN - 1]`, index 0 first; the whole next state for either answer. That
PANEL becomes an image only in phase Initialized is the spec's own decision D12, D23 (entries 10 and 11). -/
def Obligations.FlushSendsTheBuffer : Prop :=
  ∀ s : State,
    (s.answerAt 0 = .ok → exec .flush s = .next
      { s with
        panel := if s.phase = .initialized then
            .image (unpack s.geom ((List.range s.geom.bufLen).map (Memory.read s.fb))) else .unknown
        trace := s.trace ++ [.data ((List.range s.geom.bufLen).map (Memory.read s.fb)) .ok]
        oracle := s.oracle.tail
        callNo := s.callNo + 1
        answers := s.answers ++ [⟨.ok, none⟩] }) ∧
    (s.answerAt 0 = .err → exec .flush s = .next
      { s with
        phase := .uncommitted
        panel := .unknown
        trace := s.trace ++ [.data ((List.range s.geom.bufLen).map (Memory.read s.fb)) .err]
        oracle := s.oracle.tail
        callNo := s.callNo + 1
        answers := s.answers ++ [⟨.busWriteError, none⟩] })

/-- A retried FLUSH sends an identical block, whatever the first one answered (60_exceptions.md R208). -/
def Obligations.FlushRetrySendsTheSameBlock : Prop :=
  ∀ s : State, ∃ t u, exec .flush s = .next t ∧ exec .flush t = .next u ∧
    ∃ d, d.length = s.geom.bufLen ∧
      u.trace = s.trace ++ [.data d (s.answerAt 0), .data d (s.answerAt 1)] ∧ u.fb = s.fb

/-! ### Nibbles, pixels and the drawing operations -/

/-- 42_drawing_ops.md R160. -/
def Obligations.UpdateUpperHalfFormula : Prop :=
  (∀ (b : Byte) (v : Nibble),
    updateUpperHalf b v = (b &&& 0x0F#8) ||| ((v.setWidth 8 <<< 4) &&& 0xF0#8) ∧
    (updateUpperHalf b v).toNat = b.toNat % 16 + 16 * v.toNat ∧
    highNibble (updateUpperHalf b v) = v ∧ lowNibble (updateUpperHalf b v) = lowNibble b) ∧
  updateUpperHalf 0xAB 0x5 = 0x5B

/-- 42_drawing_ops.md R161. -/
def Obligations.UpdateLowerHalfFormula : Prop :=
  (∀ (b : Byte) (v : Nibble),
    updateLowerHalf b v = (b &&& 0xF0#8) ||| (v.setWidth 8 &&& 0x0F#8) ∧
    (updateLowerHalf b v).toNat = b.toNat - b.toNat % 16 + v.toNat ∧
    lowNibble (updateLowerHalf b v) = v ∧ highNibble (updateLowerHalf b v) = highNibble b) ∧
  updateLowerHalf 0xAB 0x5 = 0xA5

/-- The laws of 42_drawing_ops.md section 1: isolation, result and idempotence, which the source requires, and last write
wins and commuting, which the spec derives. -/
def Obligations.NibbleLaws : Prop :=
  ∀ (b : Byte) (v w : Nibble),
    lowNibble (updateUpperHalf b v) = lowNibble b ∧ highNibble (updateLowerHalf b v) = highNibble b ∧
    highNibble (updateUpperHalf b v) = v ∧ lowNibble (updateLowerHalf b v) = v ∧
    updateUpperHalf (updateUpperHalf b v) v = updateUpperHalf b v ∧
    updateLowerHalf (updateLowerHalf b v) v = updateLowerHalf b v ∧
    updateUpperHalf (updateUpperHalf b v) w = updateUpperHalf b w ∧
    updateLowerHalf (updateLowerHalf b v) w = updateLowerHalf b w ∧
    updateUpperHalf (updateLowerHalf b v) w = updateLowerHalf (updateUpperHalf b w) v ∧
    (updateUpperHalf (updateLowerHalf b v) w).toNat = 16 * w.toNat + v.toNat

/-- 20_memory.md R58: the bounds test, that an out-of-bounds pixel is dropped with answer `ok`, no event and nothing
else changed, and that an out-of-bounds entry of a batch is as if it were not there (42_drawing_ops.md R165, the spec's
own decision D15, entry 10). The test is on the coordinates: `(W, 0)` is out of bounds though its index is that of
`(0, 1)`. -/
def Obligations.OutOfBoundsPixelsAreDropped : Prop :=
  (∀ (g : Geometry) (x y : Coord),
    inBounds g x y = true ↔ (0 ≤ x.toInt ∧ x.toInt < g.W ∧ 0 ≤ y.toInt ∧ y.toInt < g.H)) ∧
  (∀ (x y : Coord) (v : Nibble) (s : State), inBounds s.geom x y = false →
    exec (.drawpixel x y v) s = .next { s with answers := s.answers ++ [⟨.ok, none⟩] }) ∧
  (∀ (pre post : List Pixel) (p : Pixel) (s : State), inBounds s.geom p.x p.y = false →
    exec (.drawbatch (pre ++ p :: post)) s = exec (.drawbatch (pre ++ post)) s) ∧
  (∀ g : Geometry, inBounds g (BitVec.ofNat 32 g.W) 0 = false ∧ pixelIndex g g.W 0 = pixelIndex g 0 1 ∧
    (2 ≤ g.H → pixelIndex g g.W 0 < g.bufLen)) ∧
  (∀ (g : Geometry) (x y : Coord), x.toInt < 0 ∨ y.toInt < 0 → inBounds g x y = false)

/-- DRAWPIXEL in bounds (R164): the byte at `x / 2 + y * (W / 2)` gets the value in its even or odd lane, every other
byte reads as before, and nothing else changes but the answer. -/
def Obligations.DrawpixelWritesOneLane : Prop :=
  ∀ (x y : Coord) (v : Nibble) (s : State), inBounds s.geom x y = true →
    ∃ m, exec (.drawpixel x y v) s = .next { s with fb := m, answers := s.answers ++ [⟨.ok, none⟩] } ∧
      x.toInt.toNat / 2 + y.toInt.toNat * (s.geom.W / 2) < s.geom.bufLen ∧
      (∀ a, a ≠ x.toInt.toNat / 2 + y.toInt.toNat * (s.geom.W / 2) → Memory.read m a = Memory.read s.fb a) ∧
      Memory.read m (x.toInt.toNat / 2 + y.toInt.toNat * (s.geom.W / 2)) =
        (if x.toInt % 2 = 0 then
          updateUpperHalf (Memory.read s.fb (x.toInt.toNat / 2 + y.toInt.toNat * (s.geom.W / 2))) v
        else updateLowerHalf (Memory.read s.fb (x.toInt.toNat / 2 + y.toInt.toNat * (s.geom.W / 2))) v)

/-- DRAWPIXEL seen as pixels (42 section 3, which the spec derives): the pixel named reads the value, every other pixel
reads as before. -/
def Obligations.DrawpixelChangesOnePixel : Prop :=
  ∀ (x y : Coord) (v : Nibble) (s : State), inBounds s.geom x y = true →
    ∃ t, exec (.drawpixel x y v) s = .next t ∧ pix s.geom t.fb x y = some v ∧
      ∀ x' y' : Coord, (x', y') ≠ (x, y) → pix s.geom t.fb x' y' = pix s.geom s.fb x' y'

/-- The map from in-box pixels to byte and lane is a bijection (20 section 1, which the spec derives), with the inverse
the spec gives. -/
def Obligations.PixelMapIsABijection : Prop :=
  ∀ g : Geometry,
    (∀ x y, x < g.W → y < g.H → pixelIndex g x y < g.bufLen ∧
      x = 2 * (pixelIndex g x y % (g.W / 2)) + x % 2 ∧ y = pixelIndex g x y / (g.W / 2)) ∧
    (∀ i lane, i < g.bufLen → lane < 2 →
      2 * (i % (g.W / 2)) + lane < g.W ∧ i / (g.W / 2) < g.H ∧
      pixelIndex g (2 * (i % (g.W / 2)) + lane) (i / (g.W / 2)) = i)

/-- DRAWBATCH equals its DRAWPIXELs run one after another (R165, R169): the same FB, nothing else changed but the one
answer. -/
def Obligations.DrawbatchIsItsDrawpixels : Prop :=
  ∀ (batch : List Pixel) (s : State), ∃ m,
    exec (.drawbatch batch) s = .next { s with fb := m, answers := s.answers ++ [⟨.ok, none⟩] } ∧
    runAll (batch.map (fun p => .drawpixel p.x p.y p.v)) s =
      .next { s with fb := m, answers := s.answers ++ List.replicate batch.length ⟨.ok, none⟩ }

/-- DRAWBATCH seen as pixels: the last entry that names a pixel decides it (the spec's own decision D15, entry 10), a
pixel no entry names and a byte no in-bounds entry lies in read as before. -/
def Obligations.DrawbatchLastEntryWins : Prop :=
  ∀ (batch : List Pixel) (s : State), ∃ t, exec (.drawbatch batch) s = .next t ∧
    (∀ x y : Coord, inBounds s.geom x y = true →
      pix s.geom t.fb x y = (match batch.reverse.find? (fun p => p.x == x && p.y == y) with
        | some p => some p.v
        | none => pix s.geom s.fb x y)) ∧
    (∀ a, (∀ p ∈ batch, inBounds s.geom p.x p.y = true → coordIndex s.geom p.x p.y ≠ a) →
      Memory.read t.fb a = Memory.read s.fb a)

/-- CLEAR (R166): every byte of FB gets the value in both nibbles, every in-bounds pixel reads it, and nothing else
changes but the answer. -/
def Obligations.ClearFillsTheBuffer : Prop :=
  ∀ (v : Nibble) (s : State), ∃ m,
    exec (.clear v) s = .next { s with fb := m, answers := s.answers ++ [⟨.ok, none⟩] } ∧
    (∀ a, a < s.geom.bufLen → (Memory.read m a).toNat = 17 * v.toNat) ∧
    (∀ a, s.geom.bufLen ≤ a → Memory.read m a = Memory.read s.fb a) ∧
    (∀ x y : Coord, inBounds s.geom x y = true → pix s.geom m x y = some v)

/-- CLEAR equals drawing its value at every in-bounds coordinate, in any order, from any FB (R169): the premise on FB is
the invariant `FbInv`, which every step keeps. -/
def Obligations.ClearIsDrawingEveryPixel : Prop :=
  ∀ (v : Nibble) (batch : List Pixel) (s : State), FbInv s →
    (∀ p ∈ batch, p.v = v) →
    (∀ x y : Coord, inBounds s.geom x y = true → ∃ p ∈ batch, p.x = x ∧ p.y = y) →
    exec (.drawbatch batch) s = exec (.clear v) s

/-- BBOX (R167): the answer, and nothing else changes. The corner `(0, 0)` is the spec's own decision D16 (entry 10). -/
def Obligations.BboxReportsTheGeometry : Prop :=
  ∀ s : State, exec .bbox s =
    .next { s with answers := s.answers ++ [⟨.ok, some ⟨0, 0, s.geom.W, s.geom.H⟩⟩] }

/-- Repeating a drawing operation leaves FB as the first left it (20_memory.md R61, which the spec derives). -/
def Obligations.DrawingTwiceIsDrawingOnce : Prop :=
  ∀ (i : Instr) (s : State), Instr.draws i = true → FbInv s →
    ∃ t u, exec i s = .next t ∧ exec i t = .next u ∧ u.fb = t.fb

/-- What a block of bytes unpacks to is what `pix` reads of the FB it was taken from (43 section on PANEL-MAP). -/
def Obligations.UnpackShowsThePixels : Prop :=
  ∀ (g : Geometry) (m : Memory) (x y : Coord), inBounds g x y = true →
    imageAt (unpack g (snapshot g m)) x.toInt.toNat y.toInt.toNat = pix g m x y

/-! ### The whole machine -/

/-- FB is mutated by DRAWPIXEL, DRAWBATCH and CLEAR and by nothing else (10_state.md R21). -/
def Obligations.OnlyDrawingWritesTheFramebuffer : Prop :=
  ∀ (i : Instr) (s t : State), exec i s = .next t → t.fb ≠ s.fb →
    (∃ x y v, i = .drawpixel x y v) ∨ (∃ v, i = .clear v) ∨ (∃ batch, i = .drawbatch batch)

/-- Taking the bus write error (60_exceptions.md R206): FB as before, the failed call the last event and every earlier
one good, RES unknown if it was a reset-line call, the claims on the controller withdrawn, the next request ready. The
ghost values are the spec's own decisions D7, D8, D11 (entry 10). -/
def Obligations.BusWriteErrorEntry : Prop :=
  ∀ (i : Instr) (s t : State), exec i s = .next t → t.answers = s.answers ++ [⟨.busWriteError, none⟩] →
    t.fb = s.fb ∧ t.phase = .uncommitted ∧ t.panel = .unknown ∧ t.requests = s.requests ∧
    ∃ made e, t.trace = s.trace ++ made ++ [e] ∧ e.answer? = some .err ∧
      (∀ d ∈ made, d.answer? ≠ some .err) ∧ (∀ level r, e = .line level r → t.res = .unknown)

/-- 60_exceptions.md R205: in one operation at most one call fails, it is the last one made, and the error answered is
that one's. -/
def Obligations.EarliestErrorIsReported : Prop :=
  ∀ (i : Instr) (s t : State), exec i s = .next t →
    ∃ events, t.trace = s.trace ++ events ∧ (∀ e ∈ events.dropLast, e.answer? ≠ some .err) ∧
      (t.answers = s.answers ++ [⟨.busWriteError, none⟩] ↔
        ∃ e, events.getLast? = some e ∧ e.answer? = some .err)

/-- 60_exceptions.md R201: which operations raise the error and at which call, that a delay never fails, and that every
one of the fallible calls can fail in every state. `answerAt k` is the answer of the `k`-th coming fallible call, a
free input. The clauses over `Instr.sends?` speak of the command rows beside SENDCMD: R201 lists SENDCMD, and that a row
raises as SENDCMD does is the model's reading (entry 6). -/
def Obligations.WhichOperationsRaise : Prop :=
  (∀ s : State, ∃ t, exec .reset s = .next t ∧
    (t.answers = s.answers ++ [⟨.busWriteError, none⟩] ↔ ∃ k < 3, s.answerAt k = .err) ∧
    (∀ k < 3, (∀ j < k, s.answerAt j = .ok) → s.answerAt k = .err → t.callNo = s.callNo + (k + 1))) ∧
  (∀ s : State, ∃ t, exec .init s = .next t ∧
    (t.answers = s.answers ++ [⟨.busWriteError, none⟩] ↔ ∃ k < 18, s.answerAt k = .err) ∧
    (∀ k < 18, (∀ j < k, s.answerAt j = .ok) → s.answerAt k = .err → t.callNo = s.callNo + (k + 1))) ∧
  (∀ (i : Instr) (c : Command) (s : State), Instr.sends? i = some c → ∃ t, exec i s = .next t ∧
    (t.answers = s.answers ++ [⟨.busWriteError, none⟩] ↔ s.answerAt 0 = .err)) ∧
  (∀ s : State, ∃ t, exec .flush s = .next t ∧
    (t.answers = s.answers ++ [⟨.busWriteError, none⟩] ↔ s.answerAt 0 = .err)) ∧
  (∀ (i : Instr) (s : State), Instr.draws i = true ∨ i = .bbox → ∃ t, exec i s = .next t ∧
    t.answers ≠ s.answers ++ [⟨.busWriteError, none⟩]) ∧
  (∀ (n : Nat) (s : State), (performCall (.delay n) s).1 = .ok) ∧
  (∀ (s : State) (k : Nat), k < 3 → ∃ oracle t, exec .reset { s with oracle := oracle } = .next t ∧
    t.answers = s.answers ++ [⟨.busWriteError, none⟩] ∧ t.callNo = s.callNo + (k + 1)) ∧
  (∀ (s : State) (k : Nat), k < 18 → ∃ oracle t, exec .init { s with oracle := oracle } = .next t ∧
    t.answers = s.answers ++ [⟨.busWriteError, none⟩] ∧ t.callNo = s.callNo + (k + 1)) ∧
  (∀ (i : Instr) (c : Command) (s : State), Instr.sends? i = some c →
    ∃ oracle t, exec i { s with oracle := oracle } = .next t ∧
      t.answers = s.answers ++ [⟨.busWriteError, none⟩]) ∧
  (∀ s : State, ∃ oracle t, exec .flush { s with oracle := oracle } = .next t ∧
    t.answers = s.answers ++ [⟨.busWriteError, none⟩])

/-- TRACE and the answers only grow, the answers by exactly one, and an operation leaves the waiting requests alone
(10_state.md R29, 00_scope.md R14). -/
def Obligations.HistoryOnlyGrows : Prop :=
  ∀ (i : Instr) (s t : State), exec i s = .next t →
    s.trace <+: t.trace ∧ (∃ r, t.answers = s.answers ++ [r]) ∧ t.requests = s.requests

/-- No step changes the geometry or the neutral set (00_scope.md R6, R8). -/
def Obligations.ParametersNeverChange : Prop :=
  ∀ s t : State, step s = .next t → t.geom = s.geom ∧ t.neutral = s.neutral

/-- RESET, INIT, SENDCMD, BBOX and every controller command neither read nor write FB (10_state.md R21, 20 R59): with
another FB they do the same and leave that FB. -/
def Obligations.BusOperationsIgnoreTheFramebuffer : Prop :=
  ∀ (i : Instr) (s : State) (m : Memory), i ≠ .flush → Instr.draws i = false →
    exec i { s with fb := m } = mapNext (fun t => { t with fb := m }) (exec i s) ∧
    ∀ t, exec i s = .next t → t.fb = s.fb

/-- No answer, no emitted event and no FB byte depends on a ghost value (10_state.md R20, the last sentence). -/
def Obligations.GhostValuesAreNeverRead : Prop :=
  ∀ (i : Instr) (s t : State), SameButGhost s t → SameOutputs s t (exec i s) (exec i t)

/-- `phase` after every operation: the table of 10_state.md R26, the spec's own decisions D7 and D24 (entry 10). A
command row counts as SENDCMD of its command (entry 6). -/
def Obligations.PhaseFollowsItsTable : Prop :=
  ∀ (i : Instr) (s t : State), exec i s = .next t →
    (t.answers = s.answers ++ [⟨.busWriteError, none⟩] → t.phase = .uncommitted) ∧
    (t.answers ≠ s.answers ++ [⟨.busWriteError, none⟩] →
      (i = .reset → t.phase = .reset) ∧
      (i = .init → t.phase = if s.phase = .uncommitted then .uncommitted else .initialized) ∧
      (∀ c, Instr.sends? i = some c → t.phase = if c.kind ∈ s.neutral then s.phase else .uncommitted) ∧
      (i = .flush ∨ i = .bbox ∨ Instr.draws i = true → t.phase = s.phase))

/-- `PANEL` after every operation: the table of 43_panel_address_decoder.md R183, the spec's own decisions D11 and D12
(entries 10 and 11). A command row counts as SENDCMD of its command (entry 6). -/
def Obligations.PanelFollowsItsTable : Prop :=
  ∀ (i : Instr) (s t : State), exec i s = .next t →
    (t.answers = s.answers ++ [⟨.busWriteError, none⟩] → t.panel = .unknown) ∧
    (i = .reset ∨ i = .init → t.panel = .unknown) ∧
    (t.answers ≠ s.answers ++ [⟨.busWriteError, none⟩] →
      (∀ c, Instr.sends? i = some c → t.panel = if c.kind ∈ s.neutral then s.panel else .unknown) ∧
      (i = .flush → t.panel = if s.phase = .initialized then .image (unpack s.geom (snapshot s.geom s.fb))
        else .unknown)) ∧
    (i = .bbox ∨ Instr.draws i = true → t.panel = s.panel)

/-- `Initialized` is reached only by an INIT that answers `ok` in phase `Reset`, and `Reset` only by a RESET that
answers `ok` (70 R233; the table is the spec's own decision D7, entry 10). -/
def Obligations.InitializedNeedsResetThenInit : Prop :=
  ∀ (i : Instr) (s t : State), exec i s = .next t →
    (t.phase = .initialized → s.phase ≠ .initialized →
      i = .init ∧ s.phase = .reset ∧ t.answers = s.answers ++ [⟨.ok, none⟩]) ∧
    (t.phase = .reset → s.phase ≠ .reset → i = .reset ∧ t.answers = s.answers ++ [⟨.ok, none⟩])

/-- Every step keeps FB in canonical form and inside `[0, BUFLEN)` (20_memory.md R51). -/
def Obligations.StepKeepsFramebufferForm : Prop :=
  ∀ s t : State, FbInv s → step s = .next t → FbInv t

/-- Every step keeps the ghost values no stronger than what TRACE shows: `Initialized` only after a RESET and an INIT
whose every call was answered `ok` and nothing foreign since, an image only for the last complete block after that
(10 R26, R27, 43 R183; the tables are the spec's own decisions, entries 10, 11 and 22). -/
def Obligations.StepKeepsGhostHistory : Prop :=
  ∀ s t : State, GhostHistory s → step s = .next t → GhostHistory t

/-- Every step keeps the discipline of the bus: a command list is the encoding of one of the 18 commands, a data list is
one whole buffer, a delay is 100 (30 R85, R87; 60 R211). -/
def Obligations.StepKeepsBusDiscipline : Prop :=
  ∀ s t : State, TraceDisciplined s → step s = .next t → TraceDisciplined t

/-- Every step keeps RES equal to what the reset-line calls of TRACE say (10 R27, the spec's own decision D8, entry 10). -/
def Obligations.StepKeepsResetLine : Prop :=
  ∀ s t : State, ResFollowsTrace s → step s = .next t → ResFollowsTrace t

/-- Under the premise PANEL-MAP (43 R182, D12, entry 11) an image in PANEL is what the controller's display memory
holds. For which histories the premise is asked, what may stand between RESET and INIT among them, is the model's choice
(entry 22). -/
def Obligations.PanelMapMakesTheImageTrue : Prop :=
  ∀ (s : State) (memory : List Event → Nat → Nat → Nibble) (rows : List (List Nibble)),
    GhostHistory s → PanelMap s.geom s.neutral memory → s.panel = .image rows →
    ∀ x y, x < s.geom.W → y < s.geom.H → imageAt rows x y = some (memory s.trace x y)

/-- The chain of 43_panel_address_decoder.md R186, which the spec derives: RESET, INIT, any drawing, FLUSH, all calls
answered `ok`, then any drawing: PANEL is the buffer at the FLUSH, pixel by pixel, and TRACE has exactly the 25
events. -/
def Obligations.BringUpShowsTheBuffer : Prop :=
  ∀ (s : State) (before after : List Instr),
    (∀ i ∈ before, Instr.draws i = true) → (∀ i ∈ after, Instr.draws i = true) →
    (∀ k < 22, s.answerAt k = .ok) →
    ∃ t u, runAll ([.reset, .init] ++ before ++ [.flush] ++ after) s = .next t ∧ runAll before s = .next u ∧
      t.phase = .initialized ∧ t.res = .high ∧
      t.trace = s.trace ++ resetEvents ++ initEvents s.geom ++ [.data (snapshot s.geom u.fb) .ok] ∧
      ∃ rows, t.panel = .image rows ∧ ∀ x y : Coord, inBounds s.geom x y = true →
        imageAt rows x.toInt.toNat y.toInt.toNat = pix s.geom u.fb x y
end

