-- ==== Sys2Proof/Laws/State.lean ====
section
/-! SUPPORT. One lemma for each field and each update of State, true by rfl, so that no proof unfolds a record update. -/

namespace Sys2Proof.Machine

@[simp] theorem State.geom_setFb (m : Memory) (s : State) : (s.setFb m).geom = s.geom := rfl
@[simp] theorem State.neutral_setFb (m : Memory) (s : State) : (s.setFb m).neutral = s.neutral := rfl
@[simp] theorem State.fb_setFb (m : Memory) (s : State) : (s.setFb m).fb = m := rfl
@[simp] theorem State.phase_setFb (m : Memory) (s : State) : (s.setFb m).phase = s.phase := rfl
@[simp] theorem State.res_setFb (m : Memory) (s : State) : (s.setFb m).res = s.res := rfl
@[simp] theorem State.panel_setFb (m : Memory) (s : State) : (s.setFb m).panel = s.panel := rfl
@[simp] theorem State.trace_setFb (m : Memory) (s : State) : (s.setFb m).trace = s.trace := rfl
@[simp] theorem State.requests_setFb (m : Memory) (s : State) : (s.setFb m).requests = s.requests := rfl
@[simp] theorem State.oracle_setFb (m : Memory) (s : State) : (s.setFb m).oracle = s.oracle := rfl
@[simp] theorem State.callNo_setFb (m : Memory) (s : State) : (s.setFb m).callNo = s.callNo := rfl
@[simp] theorem State.answers_setFb (m : Memory) (s : State) : (s.setFb m).answers = s.answers := rfl

@[simp] theorem State.geom_setPhase (p : Phase) (s : State) : (s.setPhase p).geom = s.geom := rfl
@[simp] theorem State.neutral_setPhase (p : Phase) (s : State) : (s.setPhase p).neutral = s.neutral := rfl
@[simp] theorem State.fb_setPhase (p : Phase) (s : State) : (s.setPhase p).fb = s.fb := rfl
@[simp] theorem State.phase_setPhase (p : Phase) (s : State) : (s.setPhase p).phase = p := rfl
@[simp] theorem State.res_setPhase (p : Phase) (s : State) : (s.setPhase p).res = s.res := rfl
@[simp] theorem State.panel_setPhase (p : Phase) (s : State) : (s.setPhase p).panel = s.panel := rfl
@[simp] theorem State.trace_setPhase (p : Phase) (s : State) : (s.setPhase p).trace = s.trace := rfl
@[simp] theorem State.requests_setPhase (p : Phase) (s : State) : (s.setPhase p).requests = s.requests := rfl
@[simp] theorem State.oracle_setPhase (p : Phase) (s : State) : (s.setPhase p).oracle = s.oracle := rfl
@[simp] theorem State.callNo_setPhase (p : Phase) (s : State) : (s.setPhase p).callNo = s.callNo := rfl
@[simp] theorem State.answers_setPhase (p : Phase) (s : State) : (s.setPhase p).answers = s.answers := rfl

@[simp] theorem State.geom_setRes (l : ResetLine) (s : State) : (s.setRes l).geom = s.geom := rfl
@[simp] theorem State.neutral_setRes (l : ResetLine) (s : State) : (s.setRes l).neutral = s.neutral := rfl
@[simp] theorem State.fb_setRes (l : ResetLine) (s : State) : (s.setRes l).fb = s.fb := rfl
@[simp] theorem State.phase_setRes (l : ResetLine) (s : State) : (s.setRes l).phase = s.phase := rfl
@[simp] theorem State.res_setRes (l : ResetLine) (s : State) : (s.setRes l).res = l := rfl
@[simp] theorem State.panel_setRes (l : ResetLine) (s : State) : (s.setRes l).panel = s.panel := rfl
@[simp] theorem State.trace_setRes (l : ResetLine) (s : State) : (s.setRes l).trace = s.trace := rfl
@[simp] theorem State.requests_setRes (l : ResetLine) (s : State) : (s.setRes l).requests = s.requests := rfl
@[simp] theorem State.oracle_setRes (l : ResetLine) (s : State) : (s.setRes l).oracle = s.oracle := rfl
@[simp] theorem State.callNo_setRes (l : ResetLine) (s : State) : (s.setRes l).callNo = s.callNo := rfl
@[simp] theorem State.answers_setRes (l : ResetLine) (s : State) : (s.setRes l).answers = s.answers := rfl

@[simp] theorem State.geom_setPanel (P : Panel) (s : State) : (s.setPanel P).geom = s.geom := rfl
@[simp] theorem State.neutral_setPanel (P : Panel) (s : State) : (s.setPanel P).neutral = s.neutral := rfl
@[simp] theorem State.fb_setPanel (P : Panel) (s : State) : (s.setPanel P).fb = s.fb := rfl
@[simp] theorem State.phase_setPanel (P : Panel) (s : State) : (s.setPanel P).phase = s.phase := rfl
@[simp] theorem State.res_setPanel (P : Panel) (s : State) : (s.setPanel P).res = s.res := rfl
@[simp] theorem State.panel_setPanel (P : Panel) (s : State) : (s.setPanel P).panel = P := rfl
@[simp] theorem State.trace_setPanel (P : Panel) (s : State) : (s.setPanel P).trace = s.trace := rfl
@[simp] theorem State.requests_setPanel (P : Panel) (s : State) : (s.setPanel P).requests = s.requests := rfl
@[simp] theorem State.oracle_setPanel (P : Panel) (s : State) : (s.setPanel P).oracle = s.oracle := rfl
@[simp] theorem State.callNo_setPanel (P : Panel) (s : State) : (s.setPanel P).callNo = s.callNo := rfl
@[simp] theorem State.answers_setPanel (P : Panel) (s : State) : (s.setPanel P).answers = s.answers := rfl

@[simp] theorem State.geom_record (e : Event) (s : State) : (s.record e).geom = s.geom := rfl
@[simp] theorem State.neutral_record (e : Event) (s : State) : (s.record e).neutral = s.neutral := rfl
@[simp] theorem State.fb_record (e : Event) (s : State) : (s.record e).fb = s.fb := rfl
@[simp] theorem State.phase_record (e : Event) (s : State) : (s.record e).phase = s.phase := rfl
@[simp] theorem State.res_record (e : Event) (s : State) : (s.record e).res = s.res := rfl
@[simp] theorem State.panel_record (e : Event) (s : State) : (s.record e).panel = s.panel := rfl
@[simp] theorem State.trace_record (e : Event) (s : State) : (s.record e).trace = s.trace ++ [e] := rfl
@[simp] theorem State.requests_record (e : Event) (s : State) : (s.record e).requests = s.requests := rfl
@[simp] theorem State.oracle_record (e : Event) (s : State) : (s.record e).oracle = s.oracle := rfl
@[simp] theorem State.callNo_record (e : Event) (s : State) : (s.record e).callNo = s.callNo := rfl
@[simp] theorem State.answers_record (e : Event) (s : State) : (s.record e).answers = s.answers := rfl

@[simp] theorem State.geom_consume (s : State) : s.consume.geom = s.geom := rfl
@[simp] theorem State.neutral_consume (s : State) : s.consume.neutral = s.neutral := rfl
@[simp] theorem State.fb_consume (s : State) : s.consume.fb = s.fb := rfl
@[simp] theorem State.phase_consume (s : State) : s.consume.phase = s.phase := rfl
@[simp] theorem State.res_consume (s : State) : s.consume.res = s.res := rfl
@[simp] theorem State.panel_consume (s : State) : s.consume.panel = s.panel := rfl
@[simp] theorem State.trace_consume (s : State) : s.consume.trace = s.trace := rfl
@[simp] theorem State.requests_consume (s : State) : s.consume.requests = s.requests := rfl
@[simp] theorem State.oracle_consume (s : State) : s.consume.oracle = s.oracle.tail := rfl
@[simp] theorem State.callNo_consume (s : State) : s.consume.callNo = s.callNo + 1 := rfl
@[simp] theorem State.answers_consume (s : State) : s.consume.answers = s.answers := rfl

@[simp] theorem State.geom_reply (r : Reply) (s : State) : (s.reply r).geom = s.geom := rfl
@[simp] theorem State.neutral_reply (r : Reply) (s : State) : (s.reply r).neutral = s.neutral := rfl
@[simp] theorem State.fb_reply (r : Reply) (s : State) : (s.reply r).fb = s.fb := rfl
@[simp] theorem State.phase_reply (r : Reply) (s : State) : (s.reply r).phase = s.phase := rfl
@[simp] theorem State.res_reply (r : Reply) (s : State) : (s.reply r).res = s.res := rfl
@[simp] theorem State.panel_reply (r : Reply) (s : State) : (s.reply r).panel = s.panel := rfl
@[simp] theorem State.trace_reply (r : Reply) (s : State) : (s.reply r).trace = s.trace := rfl
@[simp] theorem State.requests_reply (r : Reply) (s : State) : (s.reply r).requests = s.requests := rfl
@[simp] theorem State.oracle_reply (r : Reply) (s : State) : (s.reply r).oracle = s.oracle := rfl
@[simp] theorem State.callNo_reply (r : Reply) (s : State) : (s.reply r).callNo = s.callNo := rfl
@[simp] theorem State.answers_reply (r : Reply) (s : State) : (s.reply r).answers = s.answers ++ [r] := rfl

@[simp] theorem State.geom_setRequests (rs : List (List Byte)) (s : State) : (s.setRequests rs).geom = s.geom := rfl
@[simp] theorem State.neutral_setRequests (rs : List (List Byte)) (s : State) : (s.setRequests rs).neutral = s.neutral := rfl
@[simp] theorem State.fb_setRequests (rs : List (List Byte)) (s : State) : (s.setRequests rs).fb = s.fb := rfl
@[simp] theorem State.phase_setRequests (rs : List (List Byte)) (s : State) : (s.setRequests rs).phase = s.phase := rfl
@[simp] theorem State.res_setRequests (rs : List (List Byte)) (s : State) : (s.setRequests rs).res = s.res := rfl
@[simp] theorem State.panel_setRequests (rs : List (List Byte)) (s : State) : (s.setRequests rs).panel = s.panel := rfl
@[simp] theorem State.trace_setRequests (rs : List (List Byte)) (s : State) : (s.setRequests rs).trace = s.trace := rfl
@[simp] theorem State.requests_setRequests (rs : List (List Byte)) (s : State) : (s.setRequests rs).requests = rs := rfl
@[simp] theorem State.oracle_setRequests (rs : List (List Byte)) (s : State) : (s.setRequests rs).oracle = s.oracle := rfl
@[simp] theorem State.callNo_setRequests (rs : List (List Byte)) (s : State) : (s.setRequests rs).callNo = s.callNo := rfl
@[simp] theorem State.answers_setRequests (rs : List (List Byte)) (s : State) : (s.setRequests rs).answers = s.answers := rfl

@[simp] theorem geom_answerOk (s : State) : (answerOk s).geom = s.geom := rfl
@[simp] theorem neutral_answerOk (s : State) : (answerOk s).neutral = s.neutral := rfl
@[simp] theorem fb_answerOk (s : State) : (answerOk s).fb = s.fb := rfl
@[simp] theorem phase_answerOk (s : State) : (answerOk s).phase = s.phase := rfl
@[simp] theorem res_answerOk (s : State) : (answerOk s).res = s.res := rfl
@[simp] theorem panel_answerOk (s : State) : (answerOk s).panel = s.panel := rfl
@[simp] theorem trace_answerOk (s : State) : (answerOk s).trace = s.trace := rfl
@[simp] theorem requests_answerOk (s : State) : (answerOk s).requests = s.requests := rfl
@[simp] theorem oracle_answerOk (s : State) : (answerOk s).oracle = s.oracle := rfl
@[simp] theorem callNo_answerOk (s : State) : (answerOk s).callNo = s.callNo := rfl
@[simp] theorem answers_answerOk (s : State) : (answerOk s).answers = s.answers ++ [⟨.ok, none⟩] := rfl

@[simp] theorem geom_raiseBusWriteError (s : State) : (raiseBusWriteError s).geom = s.geom := rfl
@[simp] theorem neutral_raiseBusWriteError (s : State) : (raiseBusWriteError s).neutral = s.neutral := rfl
@[simp] theorem fb_raiseBusWriteError (s : State) : (raiseBusWriteError s).fb = s.fb := rfl
@[simp] theorem phase_raiseBusWriteError (s : State) : (raiseBusWriteError s).phase = .uncommitted := rfl
@[simp] theorem res_raiseBusWriteError (s : State) : (raiseBusWriteError s).res = s.res := rfl
@[simp] theorem panel_raiseBusWriteError (s : State) : (raiseBusWriteError s).panel = .unknown := rfl
@[simp] theorem trace_raiseBusWriteError (s : State) : (raiseBusWriteError s).trace = s.trace := rfl
@[simp] theorem requests_raiseBusWriteError (s : State) : (raiseBusWriteError s).requests = s.requests := rfl
@[simp] theorem oracle_raiseBusWriteError (s : State) : (raiseBusWriteError s).oracle = s.oracle := rfl
@[simp] theorem callNo_raiseBusWriteError (s : State) : (raiseBusWriteError s).callNo = s.callNo := rfl
@[simp] theorem answers_raiseBusWriteError (s : State) : (raiseBusWriteError s).answers = s.answers ++ [⟨.busWriteError, none⟩] := rfl

/-- Two states with equal fields are equal. -/
theorem State.ext_fields {s t : State} (hg : s.geom = t.geom) (hn : s.neutral = t.neutral) (hf : s.fb = t.fb)
    (hp : s.phase = t.phase) (hr : s.res = t.res) (hP : s.panel = t.panel) (ht : s.trace = t.trace)
    (hq : s.requests = t.requests) (ho : s.oracle = t.oracle) (hc : s.callNo = t.callNo)
    (ha : s.answers = t.answers) : s = t := by
  cases s; cases t; simp_all

end Sys2Proof.Machine
end

