-- ==== Sys2Proof/Laws/Calls.lean ====
section
/-! SUPPORT. What the bus-side calls can do, once: `performCall` and `runCalls` append their events in order, use up
one answer for each fallible call, let RES follow the events, and touch nothing else (00 R12, R13). -/

namespace Sys2Proof.Machine

/-- Does a call have an answer (R12)? -/
def Call.fallible : Call → Bool
  | .sendCommand _ | .sendData _ | .setLine _ => true
  | .delay _ => false

/-- The event a call appends when it is answered `r`. -/
def Call.event (r : Answer) : Call → Event
  | .sendCommand bytes => .cmd bytes r
  | .sendData bytes => .data bytes r
  | .setLine level => .line level r
  | .delay n => .delay n

/-- The answer a call gets in a state. -/
def Call.answerIn (c : Call) (s : State) : Answer := if c.fallible then s.answerAt 0 else .ok

/-- A state after events that used up `n` answers: the shape every bus-side call leaves. -/
def State.afterCalls (s : State) (events : List Event) (n : Nat) : State :=
  { s with
    res := events.foldl resAfterEvent s.res
    trace := s.trace ++ events
    oracle := s.oracle.drop n
    callNo := s.callNo + n }

@[simp] theorem geom_afterCalls (s : State) (es n) : (s.afterCalls es n).geom = s.geom := rfl
@[simp] theorem neutral_afterCalls (s : State) (es n) : (s.afterCalls es n).neutral = s.neutral := rfl
@[simp] theorem fb_afterCalls (s : State) (es n) : (s.afterCalls es n).fb = s.fb := rfl
@[simp] theorem phase_afterCalls (s : State) (es n) : (s.afterCalls es n).phase = s.phase := rfl
@[simp] theorem res_afterCalls (s : State) (es n) : (s.afterCalls es n).res = es.foldl resAfterEvent s.res := rfl
@[simp] theorem panel_afterCalls (s : State) (es n) : (s.afterCalls es n).panel = s.panel := rfl
@[simp] theorem trace_afterCalls (s : State) (es n) : (s.afterCalls es n).trace = s.trace ++ es := rfl
@[simp] theorem requests_afterCalls (s : State) (es n) : (s.afterCalls es n).requests = s.requests := rfl
@[simp] theorem oracle_afterCalls (s : State) (es n) : (s.afterCalls es n).oracle = s.oracle.drop n := rfl
@[simp] theorem callNo_afterCalls (s : State) (es n) : (s.afterCalls es n).callNo = s.callNo + n := rfl
@[simp] theorem answers_afterCalls (s : State) (es n) : (s.afterCalls es n).answers = s.answers := rfl

@[simp] theorem afterCalls_nil (s : State) : s.afterCalls [] 0 = s := by
  simp [State.afterCalls]

theorem afterCalls_append (s : State) (es fs : List Event) (m n : Nat) :
    (s.afterCalls es m).afterCalls fs n = s.afterCalls (es ++ fs) (m + n) := by
  simp [State.afterCalls, Nat.add_assoc]

@[simp] theorem answerAt_afterCalls (s : State) (es : List Event) (n k : Nat) :
    (s.afterCalls es n).answerAt k = s.answerAt (n + k) := by
  simp [State.answerAt, Nat.add_assoc]

/-- Updates of other fields do not change the coming answers. -/
@[simp] theorem answerAt_setPanel (P : Panel) (s : State) (k : Nat) : (s.setPanel P).answerAt k = s.answerAt k := rfl
@[simp] theorem answerAt_setPhase (p : Phase) (s : State) (k : Nat) : (s.setPhase p).answerAt k = s.answerAt k := rfl
@[simp] theorem answerAt_setFb (m : Memory) (s : State) (k : Nat) : (s.setFb m).answerAt k = s.answerAt k := rfl
@[simp] theorem answerAt_setRequests (rs : List (List Byte)) (s : State) (k : Nat) :
    (s.setRequests rs).answerAt k = s.answerAt k := rfl
@[simp] theorem answerAt_answerOk (s : State) (k : Nat) : (answerOk s).answerAt k = s.answerAt k := rfl

/-- Everything one call does. -/
theorem performCall_eq (c : Call) (s : State) :
    performCall c s =
      (c.answerIn s, s.afterCalls [c.event (c.answerIn s)] (if c.fallible then 1 else 0)) := by
  cases c with
  | sendCommand bytes => simp [performCall, Call.answerIn, Call.fallible, Call.event, State.afterCalls, State.record,
      State.consume, resAfterEvent]
  | sendData bytes => simp [performCall, Call.answerIn, Call.fallible, Call.event, State.afterCalls, State.record,
      State.consume, resAfterEvent]
  | setLine level =>
    rcases hr : s.answerAt 0 <;> cases level <;>
      simp [performCall, Call.answerIn, Call.fallible, Call.event, State.afterCalls, State.record,
        State.consume, State.setRes, resAfterEvent, resAfterSetLine, hr]
  | delay n => simp [performCall, Call.answerIn, Call.fallible, Call.event, State.afterCalls, State.record,
      resAfterEvent]

/-- How many of a list of calls are fallible. -/
def fallibleCount (cs : List Call) : Nat := (cs.filter Call.fallible).length

@[simp] theorem fallibleCount_nil : fallibleCount [] = 0 := rfl
theorem fallibleCount_cons (c : Call) (cs : List Call) :
    fallibleCount (c :: cs) = (if c.fallible then 1 else 0) + fallibleCount cs := by
  unfold fallibleCount
  by_cases h : c.fallible <;> simp [h, Nat.add_comm]

theorem runCalls_cons (c : Call) (rest : List Call) (s : State) :
    runCalls (c :: rest) s =
      match c.answerIn s with
      | .ok => runCalls rest (s.afterCalls [c.event .ok] (if c.fallible then 1 else 0))
      | .err => (.err, s.afterCalls [c.event .err] (if c.fallible then 1 else 0)) := by
  rw [runCalls, performCall_eq]
  cases c.answerIn s <;> rfl

/-- All the fallible calls of a sequence answered `ok`: every call is made (R13). -/
theorem runCalls_all_ok (cs : List Call) (s : State) (h : ∀ k < fallibleCount cs, s.answerAt k = .ok) :
    runCalls cs s = (.ok, s.afterCalls (cs.map (Call.event .ok)) (fallibleCount cs)) := by
  induction cs generalizing s with
  | nil => simp [runCalls]
  | cons c rest ih =>
    rw [fallibleCount_cons] at h
    have hc : c.answerIn s = .ok := by
      unfold Call.answerIn
      split
      · exact h 0 (by simp [*])
      · rfl
    rw [runCalls_cons, hc]
    simp only
    rw [ih, afterCalls_append, fallibleCount_cons]
    · rfl
    · intro k hk
      rw [answerAt_afterCalls]
      exact h _ (by omega)

/-- The call behind `done` is the first that fails: it is the last one made (R13, R206 a). -/
theorem runCalls_first_err (done : List Call) (c : Call) (rest : List Call) (s : State) (hc : c.fallible = true)
    (h : ∀ k < fallibleCount done, s.answerAt k = .ok) (he : s.answerAt (fallibleCount done) = .err) :
    runCalls (done ++ c :: rest) s =
      (.err, s.afterCalls (done.map (Call.event .ok) ++ [c.event .err]) (fallibleCount done + 1)) := by
  induction done generalizing s with
  | nil => simp [runCalls_cons, Call.answerIn, hc, show s.answerAt 0 = .err from he]
  | cons d done ih =>
    rw [fallibleCount_cons] at h he
    have hd : d.answerIn s = .ok := by
      unfold Call.answerIn
      split
      · exact h 0 (by simp [*])
      · rfl
    rw [List.cons_append, runCalls_cons, hd]
    simp only
    rw [ih, afterCalls_append, fallibleCount_cons]
    · simp [Nat.add_assoc]
    · intro k hk
      rw [answerAt_afterCalls]
      exact h _ (by omega)
    · rw [answerAt_afterCalls]; exact he

/-- EVERYTHING A SEQUENCE OF CALLS CAN DO: all of it answered `ok`, or a first part answered `ok` and then the one
failing call (R13, R207). -/
theorem runCalls_cases (cs : List Call) (s : State) :
    ((∀ k < fallibleCount cs, s.answerAt k = .ok) ∧
      runCalls cs s = (.ok, s.afterCalls (cs.map (Call.event .ok)) (fallibleCount cs))) ∨
    ∃ done c rest, cs = done ++ c :: rest ∧ c.fallible = true ∧
      (∀ k < fallibleCount done, s.answerAt k = .ok) ∧ s.answerAt (fallibleCount done) = .err ∧
      runCalls cs s =
        (.err, s.afterCalls (done.map (Call.event .ok) ++ [c.event .err]) (fallibleCount done + 1)) := by
  by_cases h : ∀ k < fallibleCount cs, s.answerAt k = .ok
  · exact .inl ⟨h, runCalls_all_ok cs s h⟩
  · right
    have key : ∀ (cs : List Call) (s : State), (¬ ∀ k < fallibleCount cs, s.answerAt k = .ok) →
        ∃ done c rest, cs = done ++ c :: rest ∧ c.fallible = true ∧
          (∀ k < fallibleCount done, s.answerAt k = .ok) ∧ s.answerAt (fallibleCount done) = .err := by
      intro cs
      induction cs with
      | nil => intro s h; simp at h
      | cons c rest ih =>
        intro s h
        by_cases hf : c.fallible = true
        · cases h0 : s.answerAt 0 with
          | err => exact ⟨[], c, rest, rfl, hf, by simp, h0⟩
          | ok =>
            obtain ⟨done, d, rest', h1, h2, h3, h4⟩ := ih (s.afterCalls [c.event .ok] 1) (by
              intro hall
              refine h (fun k hk => ?_)
              rw [fallibleCount_cons, if_pos hf] at hk
              cases k with
              | zero => exact h0
              | succ k =>
                have := hall k (by omega)
                rwa [answerAt_afterCalls, Nat.add_comm] at this)
            refine ⟨c :: done, d, rest', by rw [h1]; rfl, h2, fun k hk => ?_, ?_⟩
            · rw [fallibleCount_cons, if_pos hf] at hk
              cases k with
              | zero => exact h0
              | succ k =>
                have := h3 k (by omega)
                rwa [answerAt_afterCalls, Nat.add_comm] at this
            · rw [fallibleCount_cons, if_pos hf]
              rwa [answerAt_afterCalls] at h4
        · obtain ⟨done, d, rest', h1, h2, h3, h4⟩ := ih s (by
            intro hall
            exact h (fun k hk => hall k (by rw [fallibleCount_cons, if_neg hf] at hk; omega)))
          refine ⟨c :: done, d, rest', by rw [h1]; rfl, h2, fun k hk => ?_, ?_⟩
          · exact h3 k (by rw [fallibleCount_cons, if_neg hf] at hk; omega)
          · rw [fallibleCount_cons, if_neg hf, Nat.zero_add]; exact h4
    obtain ⟨done, c, rest, rfl, hc, ho, he⟩ := key cs s h
    exact ⟨done, c, rest, rfl, hc, ho, he, runCalls_first_err done c rest s hc ho he⟩

/-- Everything sending one command does (R110, R143). -/
theorem sendOne_eq (c : Command) (s : State) : sendOne c s = afterSending c.kind c.encode s := by
  unfold sendOne afterSending
  rw [performCall_eq]
  cases h : s.answerAt 0 <;>
    simp [finish, Call.answerIn, Call.fallible, Call.event, h, State.afterCalls, answerOk, raiseBusWriteError,
      State.setPhase, State.setPanel, State.reply, phaseAfterSend, panelAfterSend, resAfterEvent]

end Sys2Proof.Machine
end

