-- ==== Sys2Proof/Laws/Decode.lean ====
section
/-! SUPPORT. The laws of the opcode map and of the byte form of operands: what a byte decodes to after it is encoded. -/

namespace Sys2Proof

/-- Every opcode byte names its variant again (R84). -/
@[simp] theorem ofOpcode_opcode (k : CommandKind) : CommandKind.ofOpcode k.opcode = some k := by
  cases k <;> decide

/-- An opcode byte that names a variant is that variant's (R84: a full 8-bit match). -/
theorem opcode_of_ofOpcode {b : Byte} {k : CommandKind} (h : CommandKind.ofOpcode b = some k) : k.opcode = b := by
  simpa using List.find?_some h

/-- The opcodes are pairwise distinct (R84). -/
theorem opcode_injective {k k' : CommandKind} (h : k.opcode = k'.opcode) : k = k' := by
  have := ofOpcode_opcode k
  rw [h, ofOpcode_opcode] at this
  exact (Option.some.inj this).symm

/-- A port triple whose selector is a variant's opcode carries that variant (R91). -/
@[simp] theorem ofPort_opcode (k : CommandKind) (a b : Byte) : Command.ofPort k.opcode a b = some (k.build a b) := by
  simp [Command.ofPort]

@[simp] theorem kind_build (k : CommandKind) (a b : Byte) : (k.build a b).kind = k := by cases k <;> rfl

/-- A coordinate survives its four bytes. -/
@[simp] theorem coordOfBytes_coordBytes (x : Coord) :
    coordOfBytes (x.extractLsb' 0 8) (x.extractLsb' 8 8) (x.extractLsb' 16 8) (x.extractLsb' 24 8) = x := by
  apply BitVec.eq_of_getLsbD_eq
  intro i hi
  simp only [coordOfBytes, BitVec.getLsbD_append, BitVec.getLsbD_extractLsb']
  by_cases h0 : i < 8
  · simp [h0]
  · by_cases h1 : i < 16
    · simp [h0, show i - 8 < 8 by omega, show 8 + (i - 8) = i by omega]
    · by_cases h2 : i < 24
      · simp [h0, show ¬ i - 8 < 8 by omega, show i - 8 - 8 < 8 by omega,
          show 16 + (i - 8 - 8) = i by omega]
      · simp [h0, show ¬ i - 8 < 8 by omega, show ¬ i - 8 - 8 < 8 by omega,
          show i - 8 - 8 - 8 < 8 by omega, show 24 + (i - 8 - 8 - 8) = i by omega]

/-- A gray value survives its byte. -/
@[simp] theorem grayOfByte_grayByte (v : Nibble) : grayOfByte (grayByte v) = .ok v := by revert v; decide

/-- A pixel survives its nine bytes. -/
@[simp] theorem pixelOfBytes_pixelBytes (p : Pixel) :
    pixelOfBytes (p.x.extractLsb' 0 8) (p.x.extractLsb' 8 8) (p.x.extractLsb' 16 8) (p.x.extractLsb' 24 8)
      (p.y.extractLsb' 0 8) (p.y.extractLsb' 8 8) (p.y.extractLsb' 16 8) (p.y.extractLsb' 24 8) (grayByte p.v)
      = .ok p := by simp [pixelOfBytes]

/-- A batch ends at a byte 0. -/
theorem decodeBatch_end (rest : List Byte) : decodeBatch (0#8 :: rest) = .ok ([], rest) := by
  rw [decodeBatch.eq_def]; simp

/-- A batch with an entry in front. -/
theorem decodeBatch_entry (x0 x1 x2 x3 y0 y1 y2 y3 vb : Byte) (more : List Byte) :
    decodeBatch (1#8 :: x0 :: x1 :: x2 :: x3 :: y0 :: y1 :: y2 :: y3 :: vb :: more) =
      match pixelOfBytes x0 x1 x2 x3 y0 y1 y2 y3 vb with
      | .error e => .error e
      | .ok p =>
        match decodeBatch more with
        | .error e => .error e
        | .ok (ps, left) => .ok (p :: ps, left) := by
  rw [decodeBatch.eq_def]; rfl

end Sys2Proof
end

