-- ==== Sys2Proof/Laws/Memory.lean ====
section
/-! SUPPORT. The laws of the sparse framebuffer: what a byte reads as after each operation, that every operation keeps
the canonical form, and that in canonical form equal contents are equal lists. -/

namespace Sys2Proof.Machine

@[simp] theorem Memory.read_nil (i : Nat) : Memory.read [] i = Memory.unlisted := rfl

theorem Memory.read_cons (a : Nat) (b : Byte) (m : Memory) (i : Nat) :
    Memory.read ((a, b) :: m) i = if a = i then b else Memory.read m i := rfl

/-- An index without an entry reads as unlisted. -/
theorem Memory.read_of_not_listed {m : Memory} {i : Nat} (h : ∀ c ∈ m, c.1 ≠ i) :
    Memory.read m i = Memory.unlisted := by
  induction m with
  | nil => rfl
  | cons c rest ih =>
    rw [Memory.read_cons, if_neg (h c (by simp))]
    exact ih (fun d hd => h d (by simp [hd]))

theorem Memory.read_erase (m : Memory) (i j : Nat) :
    Memory.read (Memory.erase m i) j = if j = i then Memory.unlisted else Memory.read m j := by
  induction m with
  | nil => simp [Memory.erase]
  | cons c rest ih =>
    obtain ⟨a, b⟩ := c
    by_cases ha : a = i
    · have : Memory.erase ((a, b) :: rest) i = Memory.erase rest i := by simp [Memory.erase, ha]
      rw [this, ih, Memory.read_cons]
      split <;> simp_all; intro h; omega
    · have : Memory.erase ((a, b) :: rest) i = (a, b) :: Memory.erase rest i := by simp [Memory.erase, ha]
      rw [this, Memory.read_cons, Memory.read_cons, ih]
      split <;> simp_all

theorem Memory.mem_erase {m : Memory} {i : Nat} {c : Host.Cell} :
    c ∈ Memory.erase m i ↔ c ∈ m ∧ c.1 ≠ i := by simp [Memory.erase]

theorem Memory.mem_insert {m : Memory} {i : Nat} {b : Byte} {c : Host.Cell} :
    c ∈ Memory.insert m i b ↔ c = (i, b) ∨ c ∈ m := by
  induction m with
  | nil => simp [Memory.insert]
  | cons d rest ih =>
    simp only [Memory.insert]
    split
    · simp
    · simp [ih]; tauto

/-- Reading after an entry is put in, where no entry for the index stands. -/
theorem Memory.read_insert {m : Memory} {i : Nat} (h : ∀ c ∈ m, c.1 ≠ i) (b : Byte) (j : Nat) :
    Memory.read (Memory.insert m i b) j = if j = i then b else Memory.read m j := by
  induction m with
  | nil => simp [Memory.insert, Memory.read_cons, eq_comm]
  | cons d rest ih =>
    obtain ⟨a, c⟩ := d
    have ha : a ≠ i := h (a, c) (by simp)
    have ih := ih (fun d hd => h d (by simp [hd]))
    simp only [Memory.insert]
    split
    · simp [Memory.read_cons, eq_comm]
    · rw [Memory.read_cons, Memory.read_cons, ih]
      split <;> simp_all

/-- READ AFTER WRITE, for any memory: the index written reads the byte, every other index reads as before. -/
@[simp] theorem Memory.read_write (m : Memory) (i : Nat) (b : Byte) (j : Nat) :
    Memory.read (Memory.write m i b) j = if j = i then b else Memory.read m j := by
  unfold Memory.write
  split
  · rename_i hb
    rw [Memory.read_erase, hb]
  · rw [Memory.read_insert (fun c hc => (Memory.mem_erase.mp hc).2), Memory.read_erase]
    split <;> rfl

theorem Memory.read_filter_ge (m : Memory) (n j : Nat) :
    Memory.read (m.filter (fun c => decide (n ≤ c.1))) j = if j < n then Memory.unlisted else Memory.read m j := by
  induction m with
  | nil => simp
  | cons c rest ih =>
    obtain ⟨a, b⟩ := c
    by_cases ha : n ≤ a
    · rw [List.filter_cons_of_pos (by simpa using ha), Memory.read_cons, ih, Memory.read_cons]
      split <;> simp_all
    · rw [List.filter_cons_of_neg (by simpa using ha), ih, Memory.read_cons]
      split <;> simp_all
      intro h; omega

theorem Memory.read_append (m m' : Memory) (j : Nat) (h : ∀ c ∈ m, c.2 ≠ Memory.unlisted) :
    Memory.read (m ++ m') j =
      if Memory.read m j = Memory.unlisted then Memory.read m' j else Memory.read m j := by
  induction m with
  | nil => simp
  | cons c rest ih =>
    obtain ⟨a, b⟩ := c
    have hb : b ≠ Memory.unlisted := h (a, b) (by simp)
    rw [List.cons_append, Memory.read_cons, Memory.read_cons, ih (fun d hd => h d (by simp [hd]))]
    by_cases ha : a = j <;> simp [ha, hb]

theorem Memory.read_map_range (n : Nat) (b : Byte) (j : Nat) :
    Memory.read ((List.range n).map (fun i => (i, b))) j = if j < n then b else Memory.unlisted := by
  have key : ∀ l : List Nat, Memory.read (l.map (fun i => (i, b))) j = if j ∈ l then b else Memory.unlisted := by
    intro l
    induction l with
    | nil => simp
    | cons a rest ih =>
      rw [List.map_cons, Memory.read_cons, ih]
      by_cases h : a = j
      · simp [h]
      · simp [h, Ne.symm h]
  rw [key]; simp

/-- READ AFTER FILL, for any memory: an index below `n` reads the byte, every other index as before. -/
@[simp] theorem Memory.read_fill (m : Memory) (n : Nat) (b : Byte) (j : Nat) :
    Memory.read (Memory.fill m n b) j = if j < n then b else Memory.read m j := by
  unfold Memory.fill
  split
  · rename_i hb
    simp [Memory.read_filter_ge, hb]
  · rename_i hb
    rw [Memory.read_append _ _ _ (by simpa using fun _ _ => hb), Memory.read_map_range, Memory.read_filter_ge]
    by_cases hj : j < n <;> simp [hj, hb]

/-! ### Every operation keeps the canonical form -/

theorem Memory.wf_nil : Memory.wf [] := by simp [Memory.wf]

theorem Memory.erase_wf {m : Memory} (h : Memory.wf m) (i : Nat) : Memory.wf (Memory.erase m i) :=
  ⟨h.1.filter _, fun c hc => h.2 c (Memory.mem_erase.mp hc).1⟩

theorem Memory.insert_wf {m : Memory} (h : Memory.wf m) {i : Nat} (hi : ∀ c ∈ m, c.1 ≠ i) {b : Byte}
    (hb : b ≠ Memory.unlisted) : Memory.wf (Memory.insert m i b) := by
  refine ⟨?_, fun c hc => ?_⟩
  · obtain ⟨hs, -⟩ := h
    induction m with
    | nil => simp [Memory.insert]
    | cons d rest ih =>
      have ihr := ih (fun c hc => hi c (by simp [hc])) (List.pairwise_cons.mp hs).2
      have hd : d.1 ≠ i := hi d (by simp)
      have hlt := (List.pairwise_cons.mp hs).1
      simp only [Memory.insert]
      split
      · rename_i hlt'
        refine List.pairwise_cons.mpr ⟨fun c hc => ?_, hs⟩
        rcases List.mem_cons.mp hc with rfl | hc
        · exact hlt'
        · exact lt_trans hlt' (hlt c hc)
      · rename_i hnlt
        refine List.pairwise_cons.mpr ⟨fun c hc => ?_, ihr⟩
        rcases Memory.mem_insert.mp hc with rfl | hc
        · show d.1 < i
          have : ¬ i < d.1 := hnlt
          omega
        · exact hlt c hc
  · rcases Memory.mem_insert.mp hc with rfl | hc
    · exact hb
    · exact h.2 c hc

/-- A write keeps the canonical form. -/
theorem Memory.write_wf {m : Memory} (h : Memory.wf m) (i : Nat) (b : Byte) : Memory.wf (Memory.write m i b) := by
  unfold Memory.write
  split
  · exact Memory.erase_wf h i
  · exact Memory.insert_wf (Memory.erase_wf h i) (fun c hc => (Memory.mem_erase.mp hc).2) ‹_›

/-- A fill keeps the canonical form. -/
theorem Memory.fill_wf {m : Memory} (h : Memory.wf m) (n : Nat) (b : Byte) : Memory.wf (Memory.fill m n b) := by
  have hf : Memory.wf (m.filter (fun c => decide (n ≤ c.1))) :=
    ⟨h.1.filter _, fun c hc => h.2 c (List.mem_filter.mp hc).1⟩
  unfold Memory.fill
  split
  · simpa using hf
  · rename_i hb
    refine ⟨List.pairwise_append.mpr ⟨?_, hf.1, ?_⟩, fun c hc => ?_⟩
    · rw [List.pairwise_map]; exact List.pairwise_lt_range
    · intro c hc d hd
      simp only [List.mem_map, List.mem_range] at hc
      obtain ⟨i, hi, rfl⟩ := hc
      have : n ≤ d.1 := by simpa using (List.mem_filter.mp hd).2
      show i < d.1
      omega
    · rcases List.mem_append.mp hc with hc | hc
      · simp only [List.mem_map] at hc
        obtain ⟨i, -, rfl⟩ := hc
        exact hb
      · exact hf.2 c hc

theorem Memory.mem_write {m : Memory} {i : Nat} {b : Byte} {c : Host.Cell} (h : c ∈ Memory.write m i b) :
    c = (i, b) ∨ c ∈ m := by
  unfold Memory.write at h
  split at h
  · exact .inr (Memory.mem_erase.mp h).1
  · rcases Memory.mem_insert.mp h with h | h
    · exact .inl h
    · exact .inr (Memory.mem_erase.mp h).1

/-- A write inside `[0, n)` keeps a memory that fits there. -/
theorem Memory.write_fits {m : Memory} {n i : Nat} (h : Memory.fits m n) (hi : i < n) (b : Byte) :
    Memory.fits (Memory.write m i b) n := by
  refine ⟨Memory.write_wf h.1 i b, fun c hc => ?_⟩
  rcases Memory.mem_write hc with rfl | hc
  · exact hi
  · exact h.2 c hc

/-- A fill of `[0, n)` keeps a memory that fits there. -/
theorem Memory.fill_fits {m : Memory} {n : Nat} (h : Memory.fits m n) (b : Byte) :
    Memory.fits (Memory.fill m n b) n := by
  refine ⟨Memory.fill_wf h.1 n b, fun c hc => ?_⟩
  unfold Memory.fill at hc
  rcases List.mem_append.mp hc with hc | hc
  · split at hc
    · simp at hc
    · simp only [List.mem_map, List.mem_range] at hc
      obtain ⟨i, hi, rfl⟩ := hc
      exact hi
  · exact h.2 c (List.mem_filter.mp hc).1

/-- In canonical form a listed entry is what its index reads as. -/
theorem Memory.read_of_mem {m : Memory} (h : Memory.wf m) {c : Host.Cell} (hc : c ∈ m) :
    Memory.read m c.1 = c.2 := by
  induction m with
  | nil => simp at hc
  | cons d rest ih =>
    obtain ⟨hs, hz⟩ := h
    have hr : Memory.wf rest := ⟨(List.pairwise_cons.mp hs).2, fun e he => hz e (by simp [he])⟩
    obtain ⟨a, b⟩ := d
    rw [Memory.read_cons]
    rcases List.mem_cons.mp hc with rfl | hc
    · simp
    · have : a < c.1 := (List.pairwise_cons.mp hs).1 c hc
      rw [if_neg (by omega), ih hr hc]

/-- In canonical form an entry is listed exactly when its index reads as its byte, and that is not the unlisted one. -/
theorem Memory.mem_iff_read {m : Memory} (h : Memory.wf m) (c : Host.Cell) :
    c ∈ m ↔ Memory.read m c.1 = c.2 ∧ c.2 ≠ Memory.unlisted := by
  refine ⟨fun hc => ⟨Memory.read_of_mem h hc, h.2 c hc⟩, fun ⟨hr, hz⟩ => ?_⟩
  by_contra hc
  by_cases hex : ∃ d ∈ m, d.1 = c.1
  · obtain ⟨d, hd, hdc⟩ := hex
    have hd2 := Memory.read_of_mem h hd
    rw [hdc, hr] at hd2
    exact hc (by rw [show c = d from Prod.ext hdc.symm hd2]; exact hd)
  · push Not at hex
    exact hz (hr.symm.trans (Memory.read_of_not_listed hex))

/-- EQUAL CONTENTS ARE EQUAL DATA: two memories in canonical form that read alike are the same list. -/
theorem Memory.eq_of_read_eq {m m' : Memory} (h : Memory.wf m) (h' : Memory.wf m')
    (hr : ∀ i, Memory.read m i = Memory.read m' i) : m = m' := by
  have hmem : ∀ c, c ∈ m ↔ c ∈ m' := fun c => by
    rw [Memory.mem_iff_read h, Memory.mem_iff_read h', hr]
  have hn : ∀ {l : Memory}, Memory.wf l → l.Nodup := fun hl => hl.1.imp (fun hcd heq => by simp [heq] at hcd)
  have hp : m.Perm m' := (List.perm_ext_iff_of_nodup (hn h) (hn h')).mpr hmem
  refine hp.eq_of_pairwise (le := fun c d : Host.Cell => c.1 < d.1) (fun a b _ _ hab hba => ?_) h.1 h'.1
  exact absurd hab (by omega)

/-- The same for memories that fit `[0, n)`: reading alike below `n` is enough. -/
theorem Memory.eq_of_read_eq_below {m m' : Memory} {n : Nat} (h : Memory.fits m n) (h' : Memory.fits m' n)
    (hr : ∀ i < n, Memory.read m i = Memory.read m' i) : m = m' := by
  refine Memory.eq_of_read_eq h.1 h'.1 (fun i => ?_)
  by_cases hi : i < n
  · exact hr i hi
  · rw [Memory.read_of_not_listed, Memory.read_of_not_listed]
    · intro c hc; have := h'.2 c hc; omega
    · intro c hc; have := h.2 c hc; omega

end Sys2Proof.Machine
end

