-- ==== Sys2Proof/Laws/Pack.lean ====
section
/-! SUPPORT. The laws of nibble packing (42 R160 to R162, R166) and of the pixel-to-byte map (20 R51, R52). -/

namespace Sys2Proof.Machine

/-! ### Nibbles -/

@[simp] theorem highNibble_updateUpperHalf (b : Byte) (v : Nibble) : highNibble (updateUpperHalf b v) = v := by
  revert b v; decide +kernel
@[simp] theorem lowNibble_updateUpperHalf (b : Byte) (v : Nibble) :
    lowNibble (updateUpperHalf b v) = lowNibble b := by revert b v; decide +kernel
@[simp] theorem lowNibble_updateLowerHalf (b : Byte) (v : Nibble) : lowNibble (updateLowerHalf b v) = v := by
  revert b v; decide +kernel
@[simp] theorem highNibble_updateLowerHalf (b : Byte) (v : Nibble) :
    highNibble (updateLowerHalf b v) = highNibble b := by revert b v; decide +kernel
@[simp] theorem highNibble_clearByte (v : Nibble) : highNibble (clearByte v) = v := by revert v; decide
@[simp] theorem lowNibble_clearByte (v : Nibble) : lowNibble (clearByte v) = v := by revert v; decide

/-- A byte is its two nibbles. -/
theorem byte_eq_of_nibbles {b c : Byte} (hh : highNibble b = highNibble c) (hl : lowNibble b = lowNibble c) :
    b = c := by
  have key : ∀ d : Byte, d = highNibble d ++ lowNibble d := by decide
  rw [key b, key c, hh, hl]

/-- The lane written holds the value. -/
@[simp] theorem laneOf_updateLane_same (x : Nat) (v : Nibble) (b : Byte) : laneOf x (updateLane x v b) = v := by
  unfold laneOf updateLane; split <;> simp

/-- The other lane passes through bit for bit (R162, R172). -/
theorem laneOf_updateLane_other {x x' : Nat} (h : x % 2 ≠ x' % 2) (v : Nibble) (b : Byte) :
    laneOf x' (updateLane x v b) = laneOf x' b := by
  unfold laneOf updateLane; split <;> split <;> simp <;> omega

@[simp] theorem laneOf_clearByte (x : Nat) (v : Nibble) : laneOf x (clearByte v) = v := by
  unfold laneOf; split <;> simp

@[simp] theorem laneOf_zero (x : Nat) : laneOf x 0#8 = 0#4 := by
  unfold laneOf; split <;> rfl

/-! ### The bounds check -/

/-- `in_bounds` on naturals. -/
theorem inBounds_iff (g : Geometry) (x y : Coord) :
    inBounds g x y = true ↔ 0 ≤ x.toInt ∧ x.toInt.toNat < g.W ∧ 0 ≤ y.toInt ∧ y.toInt.toNat < g.H := by
  simp only [inBounds, Bool.and_eq_true, decide_eq_true_eq]
  omega

/-- A natural below 2^31 as a coordinate. -/
theorem toInt_ofNat {n : Nat} (h : n < 2 ^ 31) : (BitVec.ofNat 32 n : Coord).toInt = (n : Int) := by
  rw [BitVec.toInt_ofNat']
  rw [Int.bmod_eq_of_le] <;> omega

/-- In-bounds coordinates with the same naturals are the same. -/
theorem coord_eq_of_toNat_eq {x x' : Coord} (h : 0 ≤ x.toInt) (h' : 0 ≤ x'.toInt)
    (e : x.toInt.toNat = x'.toInt.toNat) : x = x' := BitVec.eq_of_toInt_eq (by omega)

/-! ### The pixel-to-byte map -/

theorem bufLen_eq (g : Geometry) : g.bufLen = g.H * (g.W / 2) := by
  obtain ⟨W, H, hW, -⟩ := g
  obtain ⟨k, rfl⟩ : ∃ k, W = 2 * k := ⟨W / 2, by omega⟩
  simp only [Geometry.bufLen]
  rw [show 2 * k / 2 = k by omega, show 2 * k * H = 2 * (H * k) by ring]
  omega

/-- An in-bounds pixel's byte lies in the buffer (R51). -/
theorem pixelIndex_lt (g : Geometry) {x y : Nat} (hx : x < g.W) (hy : y < g.H) : pixelIndex g x y < g.bufLen := by
  rw [bufLen_eq, pixelIndex]
  have hW := g.legal.1
  have h1 : x / 2 < g.W / 2 := by omega
  calc x / 2 + y * (g.W / 2) < g.W / 2 + y * (g.W / 2) := by omega
    _ = (y + 1) * (g.W / 2) := by ring
    _ ≤ g.H * (g.W / 2) := Nat.mul_le_mul_right _ hy

/-- Column pair and row are recovered from the byte index (R52). -/
theorem pixelIndex_div_mod (g : Geometry) {x y : Nat} (hx : x < g.W) :
    pixelIndex g x y / (g.W / 2) = y ∧ pixelIndex g x y % (g.W / 2) = x / 2 := by
  have hW := g.legal
  have h1 : x / 2 < g.W / 2 := by omega
  have h0 : 0 < g.W / 2 := by omega
  unfold pixelIndex
  constructor
  · rw [Nat.add_mul_div_right _ _ h0, Nat.div_eq_of_lt h1]; omega
  · rw [Nat.add_mul_mod_self_right, Nat.mod_eq_of_lt h1]

/-- Two pixels in one byte with the same lane are the same pixel (R52). -/
theorem pixelIndex_injective (g : Geometry) {x y x' y' : Nat} (hx : x < g.W) (hx' : x' < g.W)
    (hi : pixelIndex g x y = pixelIndex g x' y') (hp : x % 2 = x' % 2) : x = x' ∧ y = y' := by
  have a := pixelIndex_div_mod g (y := y) hx
  have b := pixelIndex_div_mod g (y := y') hx'
  rw [hi] at a
  omega

theorem coordIndex_lt {g : Geometry} {x y : Coord} (h : inBounds g x y = true) : coordIndex g x y < g.bufLen := by
  rw [inBounds_iff] at h
  exact pixelIndex_lt g h.2.1 h.2.2.2

/-- Byte `i` and a lane are the byte and lane of an in-bounds coordinate pair (R52, the inverse map). -/
theorem exists_coord (g : Geometry) {i : Nat} (hi : i < g.bufLen) (lane : Nat) (hl : lane < 2) :
    ∃ x y : Coord, inBounds g x y = true ∧ coordIndex g x y = i ∧ x.toInt.toNat % 2 = lane := by
  have hW := g.legal
  rw [bufLen_eq] at hi
  have h0 : 0 < g.W / 2 := by omega
  have hm : i % (g.W / 2) < g.W / 2 := Nat.mod_lt _ h0
  have hd : i / (g.W / 2) < g.H := Nat.div_lt_of_lt_mul (by rwa [Nat.mul_comm] at hi)
  have hsum : i % (g.W / 2) + i / (g.W / 2) * (g.W / 2) = i := by
    rw [Nat.mul_comm]; exact Nat.mod_add_div _ _
  generalize i % (g.W / 2) = col at hm hsum
  generalize i / (g.W / 2) = row at hd hsum
  have hx := toInt_ofNat (n := 2 * col + lane) (by omega)
  have hy := toInt_ofNat (n := row) (by omega)
  refine ⟨BitVec.ofNat 32 (2 * col + lane), BitVec.ofNat 32 row, ?_, ?_, ?_⟩
  · rw [inBounds_iff, hx, hy]; omega
  · rw [coordIndex, hx, hy, pixelIndex, Int.toNat_natCast, Int.toNat_natCast,
      show (2 * col + lane) / 2 = col by omega]
    exact hsum
  · rw [hx]; omega

end Sys2Proof.Machine
end

