-- ==== Sys2Proof/Laws/Draw.lean ====
section
/-! SUPPORT. What the drawing operations can do, once each: `drawPixel` never stops and changes FB alone; what `pix`
reads after it; the same for a batch. -/

namespace Sys2Proof.Machine

/-- FB after one pixel (R164). -/
def drawnFb (g : Geometry) (m : Memory) (p : Pixel) : Memory :=
  if inBounds g p.x p.y then
    Memory.write m (coordIndex g p.x p.y)
      (updateLane p.x.toInt.toNat p.v (Memory.read m (coordIndex g p.x p.y)))
  else m

/-- FB after a batch, in order (R165). -/
def drawnAll (g : Geometry) (m : Memory) (batch : List Pixel) : Memory := batch.foldl (drawnFb g) m

@[simp] theorem drawnAll_nil (g : Geometry) (m : Memory) : drawnAll g m [] = m := rfl
@[simp] theorem drawnAll_cons (g : Geometry) (m : Memory) (p : Pixel) (rest : List Pixel) :
    drawnAll g m (p :: rest) = drawnAll g (drawnFb g m p) rest := rfl

/-- Everything `drawPixel` does: a next state in which FB alone may differ. The byte access never faults (R51). -/
theorem drawPixel_eq (p : Pixel) (s : State) : drawPixel p s = .next (s.setFb (drawnFb s.geom s.fb p)) := by
  unfold drawPixel drawnFb
  split
  · rename_i h
    rw [updateByte, if_pos (coordIndex_lt h)]
  · rfl

/-- Everything a batch does. -/
theorem drawAll_eq (batch : List Pixel) (s : State) :
    drawAll batch s = .next (s.setFb (drawnAll s.geom s.fb batch)) := by
  induction batch generalizing s with
  | nil => rfl
  | cons p rest ih => rw [drawAll, drawPixel_eq]; exact ih _

theorem execDrawpixel_eq (x y : Coord) (v : Nibble) (s : State) :
    execDrawpixel x y v s = .next (answerOk (s.setFb (drawnFb s.geom s.fb ⟨x, y, v⟩))) := by
  rw [execDrawpixel, drawPixel_eq]; rfl

theorem execDrawbatch_eq (batch : List Pixel) (s : State) :
    execDrawbatch batch s = .next (answerOk (s.setFb (drawnAll s.geom s.fb batch))) := by
  rw [execDrawbatch, drawAll_eq]; rfl

theorem drawnFb_fits {g : Geometry} {m : Memory} (h : Memory.fits m g.bufLen) (p : Pixel) :
    Memory.fits (drawnFb g m p) g.bufLen := by
  unfold drawnFb
  split
  · exact Memory.write_fits h (coordIndex_lt ‹_›) _
  · exact h

theorem drawnAll_fits {g : Geometry} {m : Memory} (h : Memory.fits m g.bufLen) (batch : List Pixel) :
    Memory.fits (drawnAll g m batch) g.bufLen := by
  induction batch generalizing m with
  | nil => exact h
  | cons p rest ih => exact ih (drawnFb_fits h p)

/-- FB outside the pixel's byte reads as before. -/
theorem read_drawnFb_of_ne {g : Geometry} {m : Memory} {p : Pixel} {a : Nat}
    (h : inBounds g p.x p.y = true → a ≠ coordIndex g p.x p.y) : Memory.read (drawnFb g m p) a = Memory.read m a := by
  unfold drawnFb
  split
  · rw [Memory.read_write, if_neg (h ‹_›)]
  · rfl

end Sys2Proof.Machine
end

