-- ==== Sys2Proof/Laws/Exec.lean ====
section
/-! SUPPORT. What an instruction can do, once each: an equation for every kind, and one inversion lemma for `exec`. -/

namespace Sys2Proof.Machine

/-- A command row, and SENDCMD of a well-formed triple, is sending that command (R110, R143). -/
theorem exec_sends {i : Instr} {c : Command} (h : Instr.sends? i = some c) (s : State) :
    exec i s = .next (afterSending c.kind c.encode s) := by
  rw [← sendOne_eq]
  cases i with
  | sendcmd sel a b =>
    simp only [Instr.sends?] at h
    simp only [exec, execSendcmd, h]
  | reset | init | flush | drawpixel | clear | bbox | drawbatch => simp [Instr.sends?] at h
  | _ => simp only [Instr.sends?, Option.some.injEq] at h; subst h; rfl

/-- SENDCMD of a selector outside the 18 is refused (R91). -/
theorem exec_sendcmd_refused {sel a b : Byte} (h : CommandKind.ofOpcode sel = none) (s : State) :
    exec (.sendcmd sel a b) s = .refused (.selectorOutsideClosedSet sel) := by
  simp [exec, execSendcmd, Command.ofPort, h]

/-- A shared shape: an operation that makes calls either completes them all or stops at the first failing one. -/
theorem finish_runCalls_cases (cs : List Call) (s : State) (onOk : State → State) :
    ((∀ k < fallibleCount cs, s.answerAt k = .ok) ∧
      finish (runCalls cs s) onOk = answerOk (onOk (s.afterCalls (cs.map (Call.event .ok)) (fallibleCount cs)))) ∨
    ∃ done c rest, cs = done ++ c :: rest ∧ c.fallible = true ∧
      (∀ k < fallibleCount done, s.answerAt k = .ok) ∧ s.answerAt (fallibleCount done) = .err ∧
      finish (runCalls cs s) onOk =
        raiseBusWriteError (s.afterCalls (done.map (Call.event .ok) ++ [c.event .err]) (fallibleCount done + 1)) := by
  rcases runCalls_cases cs s with ⟨h, hr⟩ | ⟨done, c, rest, h1, h2, h3, h4, hr⟩
  · exact .inl ⟨h, by rw [hr]; rfl⟩
  · exact .inr ⟨done, c, rest, h1, h2, h3, h4, by rw [hr]; rfl⟩

/-- FLUSH either shows its block or raises (R144). -/
theorem exec_flush_eq (s : State) :
    exec .flush s = .next (match s.answerAt 0 with
      | .ok => answerOk ((s.afterCalls [.data (snapshot s.geom s.fb) .ok] 1).setPanel
          (panelAfterFlush s.geom s.phase (snapshot s.geom s.fb)))
      | .err => raiseBusWriteError (s.afterCalls [.data (snapshot s.geom s.fb) .err] 1)) := by
  show Host.Outcome.next _ = _
  rw [performCall_eq]
  cases h : s.answerAt 0 <;> simp [finish, Call.answerIn, Call.fallible, Call.event, h]

theorem exec_clear_eq (v : Nibble) (s : State) :
    exec (.clear v) s = .next (answerOk (s.setFb (Memory.fill s.fb s.geom.bufLen (clearByte v)))) := rfl

theorem exec_drawpixel_eq (x y : Coord) (v : Nibble) (s : State) :
    exec (.drawpixel x y v) s = .next (answerOk (s.setFb (drawnFb s.geom s.fb ⟨x, y, v⟩))) := execDrawpixel_eq x y v s

theorem exec_drawbatch_eq (batch : List Pixel) (s : State) :
    exec (.drawbatch batch) s = .next (answerOk (s.setFb (drawnAll s.geom s.fb batch))) := execDrawbatch_eq batch s

theorem exec_bbox_eq (s : State) :
    exec .bbox s = .next (s.reply ⟨.ok, some ⟨0, 0, s.geom.W, s.geom.H⟩⟩) := rfl

/-- Everything RESET can do (R140). -/
theorem exec_reset_eq (s : State) :
    exec .reset s = .next (finish (runCalls resetCalls (s.setPanel .unknown)) (fun t => t.setPhase .reset)) := rfl

/-- Everything INIT can do (R141). -/
theorem exec_init_eq (s : State) :
    exec .init s =
      .next (finish (runCalls (initCalls s.geom) (s.setPanel .unknown)) (fun t => t.setPhase (phaseAfterInit s.phase))) :=
  rfl

/-- FB after a drawing instruction. -/
def fbAfter (g : Geometry) (m : Memory) : Instr → Memory
  | .drawpixel x y v => drawnFb g m ⟨x, y, v⟩
  | .clear v => Memory.fill m g.bufLen (clearByte v)
  | .drawbatch batch => drawnAll g m batch
  | _ => m

theorem exec_draws {i : Instr} (h : Instr.draws i = true) (s : State) :
    exec i s = .next (answerOk (s.setFb (fbAfter s.geom s.fb i))) := by
  cases i with
  | drawpixel x y v => exact exec_drawpixel_eq x y v s
  | clear v => rfl
  | drawbatch batch => exact exec_drawbatch_eq batch s
  | _ => simp [Instr.draws] at h

theorem fbAfter_fits {g : Geometry} {m : Memory} (h : Memory.fits m g.bufLen) (i : Instr) :
    Memory.fits (fbAfter g m i) g.bufLen := by
  cases i with
  | drawpixel x y v => exact drawnFb_fits h _
  | clear v => exact Memory.fill_fits h _
  | drawbatch batch => exact drawnAll_fits h batch
  | _ => exact h

/-- Every instruction is of one of these kinds. -/
theorem instr_kinds (i : Instr) :
    (∃ c, Instr.sends? i = some c) ∨ (∃ sel a b, i = .sendcmd sel a b ∧ CommandKind.ofOpcode sel = none) ∨
    i = .reset ∨ i = .init ∨ i = .flush ∨ i = .bbox ∨ Instr.draws i = true := by
  cases i with
  | sendcmd sel a b =>
    cases h : CommandKind.ofOpcode sel with
    | none => exact .inr (.inl ⟨sel, a, b, rfl, h⟩)
    | some k => exact .inl ⟨k.build a b, by simp [Instr.sends?, Command.ofPort, h]⟩
  | _ => simp [Instr.sends?, Instr.draws]

/-- EVERYTHING AN INSTRUCTION CAN DO when it answers a next state: send a command, run RESET or INIT to the end or to
the first failing call, flush, report the box, or draw. -/
theorem exec_cases {i : Instr} {s t : State} (h : exec i s = .next t) :
    (∃ c, Instr.sends? i = some c ∧ t = afterSending c.kind c.encode s) ∨
    (i = .reset ∧ t = finish (runCalls resetCalls (s.setPanel .unknown)) (fun t => t.setPhase .reset)) ∨
    (i = .init ∧ t =
      finish (runCalls (initCalls s.geom) (s.setPanel .unknown)) (fun t => t.setPhase (phaseAfterInit s.phase))) ∨
    (i = .flush ∧ s.answerAt 0 = .ok ∧ t = answerOk ((s.afterCalls [.data (snapshot s.geom s.fb) .ok] 1).setPanel
      (panelAfterFlush s.geom s.phase (snapshot s.geom s.fb)))) ∨
    (i = .flush ∧ s.answerAt 0 = .err ∧
      t = raiseBusWriteError (s.afterCalls [.data (snapshot s.geom s.fb) .err] 1)) ∨
    (i = .bbox ∧ t = s.reply ⟨.ok, some ⟨0, 0, s.geom.W, s.geom.H⟩⟩) ∨
    (Instr.draws i = true ∧ t = answerOk (s.setFb (fbAfter s.geom s.fb i))) := by
  rcases instr_kinds i with ⟨c, hc⟩ | ⟨sel, a, b, rfl, hn⟩ | rfl | rfl | rfl | rfl | hd
  · rw [exec_sends hc] at h
    exact .inl ⟨c, hc, (Host.Outcome.next.inj h).symm⟩
  · rw [exec_sendcmd_refused hn] at h
    cases h
  · exact .inr (.inl ⟨rfl, (Host.Outcome.next.inj h).symm⟩)
  · exact .inr (.inr (.inl ⟨rfl, (Host.Outcome.next.inj h).symm⟩))
  · rw [exec_flush_eq] at h
    cases ha : s.answerAt 0 <;> rw [ha] at h
    · exact .inr (.inr (.inr (.inl ⟨rfl, rfl, (Host.Outcome.next.inj h).symm⟩)))
    · exact .inr (.inr (.inr (.inr (.inl ⟨rfl, rfl, (Host.Outcome.next.inj h).symm⟩))))
  · exact .inr (.inr (.inr (.inr (.inr (.inl ⟨rfl, (Host.Outcome.next.inj h).symm⟩)))))
  · rw [exec_draws hd] at h
    exact .inr (.inr (.inr (.inr (.inr (.inr ⟨hd, (Host.Outcome.next.inj h).symm⟩)))))

/-- EVERYTHING A STEP CAN DO: nothing, when no request is pending; otherwise the decoded instruction (R14, R15). -/
theorem step_cases {s t : State} (h : step s = .next t) :
    (s.requests = [] ∧ t = s) ∨
    ∃ record rest i left, s.requests = record :: rest ∧ decode record = .ok (i, left) ∧
      exec i (s.setRequests rest) = .next t := by
  unfold step at h
  split at h
  · exact .inl ⟨‹_›, (Host.Outcome.next.inj h).symm⟩
  · split at h
    · exact .inr ⟨_, _, _, _, ‹_›, ‹_›, h⟩
    · cases h

end Sys2Proof.Machine
end

