-- ==== Sys2Proof/Laws/PerInstr.lean ====
section
/-! SUPPORT. One fact for each instruction as syntax: the first byte of its record is an opcode of R84 for a command and
its select code of R90 for a host operation, so the two sets of first bytes never meet. -/

namespace Sys2Proof.Laws.FirstByte

open Sys2Proof

/-- The record starts with a byte that is either one of the 18 opcodes or a select code below 8, never both. -/
def Statement (i : Instr) : Prop :=
  ∃ b rest, encode i = b :: rest ∧
    (((CommandKind.ofOpcode b).isSome = true ∧ 8 ≤ b.toNat) ∨ (CommandKind.ofOpcode b = none ∧ b.toNat < 8))

theorem displayOff : Statement .displayOff := ⟨CommandKind.displayOff.opcode, _, rfl, .inl (by decide)⟩
theorem displayOn : Statement .displayOn := ⟨CommandKind.displayOn.opcode, _, rfl, .inl (by decide)⟩
theorem columnAddress (start stop : Byte) : Statement (.columnAddress start stop) := ⟨CommandKind.columnAddress.opcode, _, rfl, .inl (by decide)⟩
theorem rowAddress (start stop : Byte) : Statement (.rowAddress start stop) := ⟨CommandKind.rowAddress.opcode, _, rfl, .inl (by decide)⟩
theorem contrast (value : Byte) : Statement (.contrast value) := ⟨CommandKind.contrast.opcode, _, rfl, .inl (by decide)⟩
theorem remap (value : Byte) : Statement (.remap value) := ⟨CommandKind.remap.opcode, _, rfl, .inl (by decide)⟩
theorem startLine (value : Byte) : Statement (.startLine value) := ⟨CommandKind.startLine.opcode, _, rfl, .inl (by decide)⟩
theorem displayOffset (value : Byte) : Statement (.displayOffset value) := ⟨CommandKind.displayOffset.opcode, _, rfl, .inl (by decide)⟩
theorem normalDisplay : Statement .normalDisplay := ⟨CommandKind.normalDisplay.opcode, _, rfl, .inl (by decide)⟩
theorem muxRatio (value : Byte) : Statement (.muxRatio value) := ⟨CommandKind.muxRatio.opcode, _, rfl, .inl (by decide)⟩
theorem phaseLength (value : Byte) : Statement (.phaseLength value) := ⟨CommandKind.phaseLength.opcode, _, rfl, .inl (by decide)⟩
theorem frontClockDivider (value : Byte) : Statement (.frontClockDivider value) := ⟨CommandKind.frontClockDivider.opcode, _, rfl, .inl (by decide)⟩
theorem functionSelectionA (value : Byte) : Statement (.functionSelectionA value) := ⟨CommandKind.functionSelectionA.opcode, _, rfl, .inl (by decide)⟩
theorem secondPrechargePeriod (value : Byte) : Statement (.secondPrechargePeriod value) := ⟨CommandKind.secondPrechargePeriod.opcode, _, rfl, .inl (by decide)⟩
theorem comDeselectVoltage (value : Byte) : Statement (.comDeselectVoltage value) := ⟨CommandKind.comDeselectVoltage.opcode, _, rfl, .inl (by decide)⟩
theorem prechargeVoltage (value : Byte) : Statement (.prechargeVoltage value) := ⟨CommandKind.prechargeVoltage.opcode, _, rfl, .inl (by decide)⟩
theorem functionSelectionB (value : Byte) : Statement (.functionSelectionB value) := ⟨CommandKind.functionSelectionB.opcode, _, rfl, .inl (by decide)⟩
theorem commandLock (value : Byte) : Statement (.commandLock value) := ⟨CommandKind.commandLock.opcode, _, rfl, .inl (by decide)⟩
theorem reset : Statement .reset := ⟨_, _, rfl, .inr (by decide)⟩
theorem init : Statement .init := ⟨_, _, rfl, .inr (by decide)⟩
theorem sendcmd (sel a b : Byte) : Statement (.sendcmd sel a b) := ⟨_, _, rfl, .inr (by decide)⟩
theorem flush : Statement .flush := ⟨_, _, rfl, .inr (by decide)⟩
theorem drawpixel (x y : Coord) (v : Nibble) : Statement (.drawpixel x y v) := ⟨_, _, rfl, .inr (by decide)⟩
theorem clear (v : Nibble) : Statement (.clear v) := ⟨_, _, rfl, .inr (by decide)⟩
theorem bbox : Statement .bbox := ⟨_, _, rfl, .inr (by decide)⟩
theorem drawbatch (batch : List Pixel) : Statement (.drawbatch batch) := ⟨_, _, rfl, .inr (by decide)⟩

end Sys2Proof.Laws.FirstByte
end

