-- ==== Sys2Proof/Tests/Slice0.lean ====
section
/-! SUPPORT. Tests on fixed values, expected results from spec/95_test_vectors.md and the encoding clauses, and for
each obligation with hypotheses a state and operands that meet them (`witness_<obligation>`). -/

namespace Sys2Proof.Tests

open Sys2Proof Sys2Proof.Machine

/-- The small geometry of 95_test_vectors.md. -/
def T4x2 : Geometry := ⟨4, 2, by decide⟩

/-- The smallest geometry of R7. -/
def T2x1 : Geometry := ⟨2, 1, by decide⟩

/-- A state just after construction whose coming calls answer `oracle`. -/
def start (g : Geometry) (oracle : List Answer) : State :=
  { State.construct g Config.neutralDefault with oracle := oracle }

/-- `start` with a reset line pulsed and a controller programmed. -/
def ready (g : Geometry) (oracle : List Answer) : State :=
  { start g oracle with phase := .initialized, res := .high, panel := .image [] }

/-- What the two kinds of answer look like. -/
def okReply : Reply := ⟨.ok, none⟩
def errReply : Reply := ⟨.busWriteError, none⟩

/-- An outcome is a next state and the check holds of it. -/
def nextIs (o : Host.Outcome State Fault Refusal) (check : State → Bool) : Bool :=
  match o with
  | .next t => check t
  | .fault _ => false
  | .refused _ => false

/-- `phase`, `RES`, the new events and the answers of an outcome. -/
def shows (o : Host.Outcome State Fault Refusal) (p : Phase) (l : ResetLine) (events : List Event)
    (answers : List Reply) : Bool :=
  nextIs o (fun t => decide (t.phase = p ∧ t.res = l ∧ t.trace = events ∧ t.answers = answers))

/-! ### Well-formedness -/

theorem test_sendcmd_selector_checked :
    (Instr.sendcmd 0x00 0 0).WellFormed = false ∧ (Instr.sendcmd 0xA3 0 0).WellFormed = false ∧
    (Instr.sendcmd 0x81 0xFF 0).WellFormed = true := by decide

theorem test_geometry_checked :
    ¬ LegalGeometry 3 2 ∧ ¬ LegalGeometry 0 2 ∧ ¬ LegalGeometry 258 2 ∧ ¬ LegalGeometry 4 0 ∧
    ¬ LegalGeometry 4 257 ∧ LegalGeometry 2 1 ∧ LegalGeometry 256 256 := by decide

/-! ### Decoding: each row's word written out from its encoding in R84 and R90 -/

theorem test_decode_commands_without_operand :
    decodeTableWord 8 0b10101110 = some .displayOff ∧ decodeTableWord 8 0b10101111 = some .displayOn ∧
    decodeTableWord 8 0b10100100 = some .normalDisplay := by decide

theorem test_decode_address_ranges :
    decodeTableWord 24 0b001011110001000000010101 = some (.columnAddress 0x10 0x2F) ∧
    decodeTableWord 24 0b001111110000000001110101 = some (.rowAddress 0x00 0x3F) := by decide

theorem test_decode_commands_with_one_operand :
    decodeTableWord 16 0b1111111110000001 = some (.contrast 0xFF) ∧
    decodeTableWord 16 0b0101000110100000 = some (.remap 0x51) ∧
    decodeTableWord 16 0b0111111110100001 = some (.startLine 0x7F) ∧
    decodeTableWord 16 0b1000000010100010 = some (.displayOffset 0x80) ∧
    decodeTableWord 16 0b0000111110101000 = some (.muxRatio 0x0F) ∧
    decodeTableWord 16 0b1111000110110001 = some (.phaseLength 0xF1) := by decide

theorem test_decode_more_commands_with_one_operand :
    decodeTableWord 16 0b1111000010110011 = some (.frontClockDivider 0xF0) ∧
    decodeTableWord 16 0b0000000110101011 = some (.functionSelectionA 0x01) ∧
    decodeTableWord 16 0b0000111110110110 = some (.secondPrechargePeriod 0x0F) ∧
    decodeTableWord 16 0b0000011110111110 = some (.comDeselectVoltage 0x07) ∧
    decodeTableWord 16 0b0000100010111100 = some (.prechargeVoltage 0x08) ∧
    decodeTableWord 16 0b0110001011010101 = some (.functionSelectionB 0x62) ∧
    decodeTableWord 16 0b0001001011111101 = some (.commandLock 0x12) := by decide

theorem test_decode_host_operations :
    decodeTableWord 3 0b000 = some .reset ∧ decodeTableWord 3 0b001 = some .init ∧
    decodeTableWord 32 0x2F101502 = some (.sendcmd 0x15 0x10 0x2F) ∧ decodeTableWord 3 0b011 = some .flush ∧
    decodeTableWord 3 0b100 = some (.drawpixel 0 0 0) ∧ decodeTableWord 16 0x0F05 = some (.clear 0xF) ∧
    decodeTableWord 3 0b110 = some .bbox ∧ decodeTableWord 3 0b111 = some (.drawbatch []) := by decide

/-- A negative coordinate, and a batch of one entry (entry 4's layout). -/
theorem test_decode_coordinates :
    decodeTableWord 80 0x0F00000005FFFFFFFF04 = some (.drawpixel (-1) 5 0xF) ∧
    decodeTableWord 96 0x000A000000020000000307 = none ∧
    decodeTableWord 96 0x000A00000002000000030107 = some (.drawbatch [⟨3, 2, 0xA⟩]) := by decide

/-- Bytes that are no request are refused by name. -/
theorem test_decode_rejects :
    decode [] = .error .emptyRecord ∧ decode [0x08] = .error (.unassignedFirstByte 0x08) ∧
    decode [0xFF, 0x00] = .error (.unassignedFirstByte 0xFF) ∧ decode [0x81] = .error .truncated ∧
    decode [0x15, 0x00] = .error .truncated ∧ decode [0x02, 0x81, 0xFF] = .error .truncated ∧
    decode [0x05, 0x10] = .error (.grayWiderThanFourBits 0x10) ∧ decode [0x07] = .error .truncated ∧
    decode [0x07, 0x02] = .error (.badBatchMark 0x02) :=
  ⟨rfl, rfl, rfl, rfl, rfl, rfl, rfl, rfl, rfl⟩

/-- V-ENC-1: an operand byte equal to an opcode is still an operand. -/
theorem test_operand_equal_to_an_opcode :
    Command.encode (.contrast 0xAF) = [0x81, 0xAF] ∧ Instr.sends? (.sendcmd 0x81 0xAF 0) = some (.contrast 0xAF) := by
  decide

/-- S5, S6, S7. -/
theorem test_source_encodings :
    Command.encode (.contrast 0x80) = [0x81, 0x80] ∧ Command.encode (.columnAddress 0 127) = [0x15, 0x00, 0x7F] ∧
    Command.encode .displayOn = [0xAF] := by decide

/-! ### Commands and SENDCMD (95 section 2.4) -/

/-- V-CMD-1: neutral, so the claims stay. -/
theorem test_sendcmd_contrast :
    shows (exec (.sendcmd 0x81 0xFF 0) (ready T4x2 [.ok])) .initialized .high [.cmd [0x81, 0xFF] .ok] [okReply] = true ∧
    nextIs (exec (.sendcmd 0x81 0xFF 0) (ready T4x2 [.ok])) (fun t => decide (t.panel = .image [])) = true := by decide

/-- V-CMD-3 and V-CMD-5. -/
theorem test_sendcmd_withdraws :
    shows (exec (.sendcmd 0x15 0x10 0x2F) (ready T4x2 [.ok])) .uncommitted .high [.cmd [0x15, 0x10, 0x2F] .ok]
      [okReply] = true ∧
    shows (exec (.sendcmd 0x81 0x80 0) (ready T4x2 [.err])) .uncommitted .high [.cmd [0x81, 0x80] .err]
      [errReply] = true ∧
    nextIs (exec (.sendcmd 0x81 0x80 0) (ready T4x2 [.err])) (fun t => decide (t.panel = .unknown)) = true := by decide

/-- V-CMD-2 and V-CMD-6, as the commands themselves. -/
theorem test_commands_as_instructions :
    shows (exec .displayOff (ready T4x2 [.ok])) .initialized .high [.cmd [0xAE] .ok] [okReply] = true ∧
    shows (exec (.commandLock 0x16) (start T4x2 [.ok])) .uncommitted .unknown [.cmd [0xFD, 0x16] .ok] [okReply] = true ∧
    shows (exec (.remap 0x51) (ready T4x2 [.ok])) .uncommitted .high [.cmd [0xA0, 0x51] .ok] [okReply] = true := by
  decide

/-- The last line of 95 section 2.4: neutrality is a parameter. -/
theorem test_neutral_set_is_a_parameter :
    nextIs (exec .displayOff { ready T4x2 [.ok] with neutral := [.contrast] })
      (fun t => decide (t.phase = .uncommitted ∧ t.panel = .unknown)) = true := by decide

/-! ### RESET, INIT, FLUSH -/

/-- V-RST-1 and V-RST-3. -/
theorem test_reset :
    shows (exec .reset (start T4x2 [.ok, .ok, .ok])) .reset .high
      [.line .high .ok, .delay 100, .line .low .ok, .delay 100, .line .high .ok, .delay 100] [okReply] = true ∧
    shows (exec .reset (start T4x2 [.ok, .err])) .uncommitted .unknown
      [.line .high .ok, .delay 100, .line .low .err] [errReply] = true := by decide

/-- V-INIT-6. -/
theorem test_init_small_geometry :
    shows (exec .init { start T4x2 (List.replicate 18 .ok) with phase := .reset }) .initialized .unknown
      [.cmd [0xAE] .ok, .cmd [0x15, 0x00, 0x03] .ok, .cmd [0x75, 0x00, 0x01] .ok, .cmd [0x81, 0x80] .ok,
       .cmd [0xA0, 0x51] .ok, .cmd [0xA1, 0x00] .ok, .cmd [0xA2, 0x00] .ok, .cmd [0xA4] .ok, .cmd [0xA8, 0x7F] .ok,
       .cmd [0xB1, 0xF1] .ok, .cmd [0xB3, 0x00] .ok, .cmd [0xAB, 0x01] .ok, .cmd [0xB6, 0x0F] .ok,
       .cmd [0xBE, 0x0F] .ok, .cmd [0xBC, 0x08] .ok, .cmd [0xD5, 0x62] .ok, .cmd [0xFD, 0x12] .ok, .cmd [0xAF] .ok]
      [okReply] = true := by decide

/-- P3 line 2: step 5 fails. -/
theorem test_init_fails_at_step_five :
    shows (exec .init (start Config.G128x128 [.ok, .ok, .ok, .ok, .err])) .uncommitted .unknown
      [.cmd [0xAE] .ok, .cmd [0x15, 0x00, 0x7F] .ok, .cmd [0x75, 0x00, 0x7F] .ok, .cmd [0x81, 0x80] .ok,
       .cmd [0xA0, 0x51] .err] [errReply] = true := by decide

/-- The buffer `[13, 3B, 3D, 33]` of program P4. -/
def bufferP4 : Memory := [(0, 0x13), (1, 0x3B), (2, 0x3D), (3, 0x33)]

/-- V-FL-6. -/
theorem test_flush :
    nextIs (exec .flush { ready T4x2 [.ok] with fb := bufferP4 }) (fun t => decide (
      t.trace = [.data [0x13, 0x3B, 0x3D, 0x33] .ok] ∧ t.fb = bufferP4 ∧ t.phase = .initialized ∧
      t.panel = .image [[1, 3, 3, 0xB], [3, 0xD, 3, 3]])) = true := by decide

/-- V-FL-4 and V-FL-5, on the small geometry. -/
theorem test_flush_without_claim :
    nextIs (exec .flush { ready T4x2 [.err] with fb := bufferP4 }) (fun t => decide (
      t.trace = [.data [0x13, 0x3B, 0x3D, 0x33] .err] ∧ t.phase = .uncommitted ∧ t.panel = .unknown)) = true ∧
    nextIs (exec .flush { start T4x2 [.ok] with phase := .reset }) (fun t => decide (
      t.trace = [.data [0, 0, 0, 0] .ok] ∧ t.phase = .reset ∧ t.panel = .unknown)) = true := by decide

/-! ### Drawing -/

/-- The table of 95 section 2.6. -/
theorem test_nibbles :
    (updateUpperHalf 0x00 0xF, updateLowerHalf 0x00 0xF) = (0xF0, 0x0F) ∧
    (updateUpperHalf 0xFF 0x0, updateLowerHalf 0xFF 0x0) = (0x0F, 0xF0) ∧
    (updateUpperHalf 0x3C 0xC, updateLowerHalf 0x3C 0x3) = (0xCC, 0x33) ∧
    (updateUpperHalf 0x80 0x1, updateLowerHalf 0x80 0x1) = (0x10, 0x81) := by decide

/-- Indexes of 95 section 2.7, the last for (256, 256). -/
theorem test_pixel_index :
    pixelIndex Config.G128x128 5 3 = 194 ∧ pixelIndex Config.G128x128 127 0 = 63 ∧
    pixelIndex Config.G128x128 0 127 = 8128 ∧ pixelIndex Config.G128x128 127 127 = 8191 ∧
    pixelIndex ⟨256, 256, by decide⟩ 255 255 = 32767 := by decide

/-- 95 section 2.7: `(5, 3, 9)`, and `(127, 127, 8)` over 60. -/
theorem test_drawpixel :
    nextIs (exec (.drawpixel 5 3 9) State.reset) (fun t => decide (t.fb = [(194, 0x09)])) = true ∧
    nextIs (exec (.drawpixel 127 127 8) { State.reset with fb := [(8191, 0x60)] })
      (fun t => decide (t.fb = [(8191, 0x68)] ∧ t.answers = [okReply] ∧ t.trace = [])) = true := by decide

/-- 95 section 2.7: coordinates outside the box, `(128, 0)` beside byte 64 that holds 4F. -/
theorem test_drawpixel_out_of_bounds :
    nextIs (exec (.drawpixel 128 0 0xF) { State.reset with fb := [(64, 0x4F)] })
      (fun t => decide (t.fb = [(64, 0x4F)] ∧ t.answers = [okReply])) = true ∧
    nextIs (exec (.drawpixel 0x80000000 5 0xF) State.reset) (fun t => decide (t.fb = [])) = true ∧
    nextIs (exec (.drawpixel 129 (-3) 0xF) State.reset) (fun t => decide (t.fb = [])) = true := by decide

/-- 95 section 2.8: CLEAR 5, then `(1, 0, 2)`. -/
theorem test_clear :
    nextIs (exec (.clear 5) (start T4x2 [])) (fun t =>
      nextIs (exec (.drawpixel 1 0 2) t) (fun u => decide (snapshot T4x2 u.fb = [0x52, 0x55, 0x55, 0x55]))) = true ∧
    nextIs (exec (.clear 0) { start T4x2 [] with fb := bufferP4 }) (fun t => decide (t.fb = [])) = true := by decide

/-- Program P4, lines 1 and 2. -/
theorem test_drawbatch :
    nextIs (exec (.drawbatch [⟨0, 0, 0xA⟩, ⟨3, 0, 0xB⟩, ⟨4, 0, 0xC⟩, ⟨1, 1, 0xD⟩, ⟨-1, 1, 0xE⟩, ⟨2, 2, 0xF⟩, ⟨0, 0, 1⟩])
      { start T4x2 [] with fb := [(0, 0x33), (1, 0x33), (2, 0x33), (3, 0x33)] })
      (fun t => decide (t.fb = bufferP4 ∧ t.answers = [okReply] ∧ t.trace = [])) = true := by decide

/-- 95 section 2.8. -/
theorem test_bbox :
    nextIs (exec .bbox State.reset) (fun t => decide (t.answers = [⟨.ok, some ⟨0, 0, 128, 128⟩⟩])) = true := by decide

/-- A step takes the record off the queue and runs it. -/
theorem test_step :
    nextIs (step { State.reset with requests := [[0x06], [0x03]] })
      (fun t => decide (t.requests = [[0x03]] ∧ t.answers = [⟨.ok, some ⟨0, 0, 128, 128⟩⟩])) = true := by decide

/-! ### Witnesses: states and operands that meet each statement's hypotheses -/

theorem witness_EncodeOfDecode :
    decode [0x02, 0x81, 0xFF, 0x00, 0x99] = .ok (.sendcmd 0x81 0xFF 0x00, [0x99]) := rfl

theorem witness_CommandDecoderRecovers :
    Command.decode [0x15, 0x10, 0x2F, 0xAE] = .ok (.columnAddress 0x10 0x2F, [0xAE]) ∧
    Command.encode (.contrast 0xAF) = Command.encode ((CommandKind.contrast).build 0xAF 0x12) := ⟨rfl, rfl⟩

theorem witness_OpcodesAreAClosedSet : CommandKind.ofOpcode 0xFD = some .commandLock := rfl

theorem witness_ConstructionState :
    0 < T2x1.bufLen ∧ 8191 < Config.G128x128.bufLen ∧ inBounds Config.G128x128 127 127 = true ∧
    inBounds T2x1 1 0 = true := by decide

theorem witness_StepRunsDecodedRequest :
    { State.reset with requests := [[0x05, 0x0F]] }.requests = [0x05, 0x0F] :: [] ∧
    decode [0x05, 0x0F] = .ok (.clear 0xF, []) := ⟨rfl, rfl⟩

theorem witness_StepRunsTableWord : decodeTableWord 16 0x0F05 = some (.clear 0xF) := by decide

/-- Nothing pending, an empty record, and a byte that is neither opcode nor select code. -/
theorem witness_StepWithoutARequest :
    State.reset.requests = [] ∧ decode [] = .error .emptyRecord ∧
    decode [0xFF] = .error (.unassignedFirstByte 0xFF) := ⟨rfl, rfl, rfl⟩

theorem witness_WellFormedInstructionsComplete :
    (Instr.sendcmd 0x15 0 0).WellFormed = true ∧ Instr.flush.WellFormed = true := by decide

theorem witness_SendcmdRefusesOtherSelectors :
    (∀ k : CommandKind, (0x00 : Byte) ≠ k.opcode) ∧ ∀ k : CommandKind, (0xFF : Byte) ≠ k.opcode :=
  ⟨fun k => by cases k <;> decide, fun k => by cases k <;> decide⟩

/-- Both answers of R111's two equivalences occur. -/
theorem witness_SendingRaisesIffItsCallFails :
    (start T4x2 [.ok]).answerAt 0 = .ok ∧ (start T4x2 [.err]).answerAt 0 = .err := by decide

theorem witness_ResetPulsesTheLine : ∀ k < 3, (start T4x2 [.ok, .ok, .ok]).answerAt k = .ok := by decide

/-- One state for each of the three failing calls. -/
theorem witness_ResetStopsAtFailingCall :
    (start T4x2 [.err]).answerAt 0 = .err ∧
    ((∀ j < 1, (start T4x2 [.ok, .err]).answerAt j = .ok) ∧ (start T4x2 [.ok, .err]).answerAt 1 = .err) ∧
    ((∀ j < 2, (start T4x2 [.ok, .ok, .err]).answerAt j = .ok) ∧ (start T4x2 [.ok, .ok, .err]).answerAt 2 = .err) := by
  decide

theorem witness_InitSendsItsSequence :
    ∀ k < 18, (start T4x2 (List.replicate 18 .ok)).answerAt k = .ok := by decide

/-- The first and the last step fail. -/
theorem witness_InitStopsAtFailingStep :
    (start T4x2 [.err]).answerAt 0 = .err ∧
    (∀ j < 17, (start T4x2 (List.replicate 17 .ok ++ [.err])).answerAt j = .ok) ∧
    (start T4x2 (List.replicate 17 .ok ++ [.err])).answerAt 17 = .err := by decide

theorem witness_InitProgramsEveryRegister :
    ∀ k < 18, (start Config.G128x128 (List.replicate 18 .ok)).answerAt k = .ok := by decide

theorem witness_FlushSendsTheBuffer :
    (start T4x2 [.ok]).answerAt 0 = .ok ∧ (start T4x2 [.err]).answerAt 0 = .err := by decide

/-- Right of the box, left of it, below it and above it. -/
theorem witness_OutOfBoundsPixelsAreDropped :
    inBounds T4x2 4 0 = false ∧ inBounds T4x2 (-1) 0 = false ∧ inBounds T4x2 0 2 = false ∧
    inBounds T4x2 0 (-1) = false ∧ 2 ≤ T4x2.H ∧ (-1 : Coord).toInt < 0 := by decide

theorem witness_DrawpixelWritesOneLane : inBounds T4x2 3 1 = true ∧ inBounds T4x2 0 0 = true := by decide

theorem witness_DrawpixelChangesOnePixel :
    inBounds T4x2 3 1 = true ∧ ((2, 1) : Coord × Coord) ≠ (3, 1) := by decide

/-- The corners of the box and of the byte range. -/
theorem witness_PixelMapIsABijection :
    (3 < T4x2.W ∧ 1 < T4x2.H) ∧ (0 < T4x2.W ∧ 0 < T4x2.H) ∧ (3 < T4x2.bufLen ∧ 1 < 2) := by decide

/-- A pixel that two entries name, one that none names, and a byte no in-bounds entry lies in. -/
theorem witness_DrawbatchLastEntryWins :
    inBounds T4x2 0 0 = true ∧ inBounds T4x2 3 1 = true ∧
    (∀ p ∈ [(⟨0, 0, 0xA⟩ : Pixel), ⟨4, 0, 0xC⟩, ⟨0, 0, 1⟩],
      inBounds T4x2 p.x p.y = true → coordIndex T4x2 p.x p.y ≠ 2) := by decide

/-- The last byte of FB, the first index after it, and a corner pixel. -/
theorem witness_ClearFillsTheBuffer :
    3 < T4x2.bufLen ∧ T4x2.bufLen ≤ 4 ∧ inBounds T4x2 3 1 = true := by decide

/-- Two entries cover the geometry (2, 1). -/
theorem witness_ClearIsDrawingEveryPixel :
    FbInv (start T2x1 []) ∧ (∀ p ∈ [(⟨1, 0, 7⟩ : Pixel), ⟨0, 0, 7⟩], p.v = 7) ∧
    (∀ x y : Coord, inBounds T2x1 x y = true → ∃ p ∈ [(⟨1, 0, 7⟩ : Pixel), ⟨0, 0, 7⟩], p.x = x ∧ p.y = y) := by
  refine ⟨by decide, by decide, fun x y h => ?_⟩
  obtain ⟨hx0, hx2, hy0, hy1⟩ : 0 ≤ x.toInt ∧ x.toInt < 2 ∧ 0 ≤ y.toInt ∧ y.toInt < 1 := by
    simpa [inBounds, T2x1, and_assoc] using h
  have hy : y = 0 := BitVec.eq_of_toInt_eq (by simp; omega)
  rcases (by omega : x.toInt = 0 ∨ x.toInt = 1) with hx | hx
  · exact ⟨⟨0, 0, 7⟩, by simp, (BitVec.eq_of_toInt_eq (by rw [hx]; rfl)).symm, hy.symm⟩
  · exact ⟨⟨1, 0, 7⟩, by simp, (BitVec.eq_of_toInt_eq (by rw [hx]; rfl)).symm, hy.symm⟩

theorem witness_DrawingTwiceIsDrawingOnce :
    Instr.draws (.drawpixel 0 0 5) = true ∧ Instr.draws (.clear 5) = true ∧ Instr.draws (.drawbatch []) = true ∧
    FbInv { start T4x2 [] with fb := bufferP4 } := by decide

theorem witness_UnpackShowsThePixels : inBounds T4x2 3 1 = true := by decide

theorem witness_OnlyDrawingWritesTheFramebuffer :
    ∃ t, exec (.clear 5) (start T4x2 []) = .next t ∧ t.fb ≠ (start T4x2 []).fb := ⟨_, rfl, by decide⟩

/-- A failing reset-line call, and a failing command. -/
theorem witness_BusWriteErrorEntry :
    (∃ t, exec .reset (start T4x2 [.ok, .err]) = .next t ∧
      t.answers = (start T4x2 [.ok, .err]).answers ++ [⟨.busWriteError, none⟩] ∧
      t.trace = [.line .high .ok, .delay 100] ++ [.line .low .err]) ∧
    (∃ t, exec .displayOn (start T4x2 [.err]) = .next t ∧
      t.answers = (start T4x2 [.err]).answers ++ [⟨.busWriteError, none⟩]) :=
  ⟨⟨_, rfl, by decide, by decide⟩, ⟨_, rfl, by decide⟩⟩

/-- Operations with a failing last call, and with none at all. -/
theorem witness_EarliestErrorIsReported :
    (∃ t, exec .init (start T4x2 [.ok, .err]) = .next t ∧ t.trace.length = 2) ∧
    (∃ t, exec .bbox (start T4x2 []) = .next t ∧ t.trace = []) := ⟨⟨_, rfl, by decide⟩, ⟨_, rfl, by decide⟩⟩

theorem witness_WhichOperationsRaise :
    ((∀ j < 2, (start T4x2 [.ok, .ok, .err]).answerAt j = .ok) ∧ (start T4x2 [.ok, .ok, .err]).answerAt 2 = .err) ∧
    ((∀ j < 17, (start T4x2 (List.replicate 17 .ok ++ [.err])).answerAt j = .ok) ∧
      (start T4x2 (List.replicate 17 .ok ++ [.err])).answerAt 17 = .err) ∧
    Instr.sends? (.sendcmd 0x81 0x10 0) = some (.contrast 0x10) ∧ Instr.sends? .displayOn = some .displayOn ∧
    Instr.draws (.clear 1) = true := by decide

theorem witness_HistoryOnlyGrows : ∃ t, exec .reset (start T4x2 [.ok, .err]) = .next t := ⟨_, rfl⟩

theorem witness_ParametersNeverChange :
    ∃ t, step { start T4x2 [.ok] with requests := [[0x02, 0xA0, 0x51, 0x00]] } = .next t := ⟨_, rfl⟩

theorem witness_BusOperationsIgnoreTheFramebuffer :
    (Instr.reset ≠ .flush ∧ Instr.draws .reset = false) ∧ (Instr.bbox ≠ .flush ∧ Instr.draws .bbox = false) ∧
    ∃ t, exec .bbox (start T4x2 []) = .next t := ⟨by decide, by decide, _, rfl⟩

/-- Two different states that differ in ghost values only. -/
theorem witness_GhostValuesAreNeverRead :
    SameButGhost (start T4x2 [.ok]) (ready T4x2 [.ok]) ∧ start T4x2 [.ok] ≠ ready T4x2 [.ok] :=
  ⟨⟨rfl, rfl, rfl, rfl, rfl, rfl, rfl⟩, by decide⟩

/-- One outcome for each line of R26's table. -/
theorem witness_PhaseFollowsItsTable :
    (∃ t, exec .flush (ready T4x2 [.err]) = .next t ∧ t.answers = [] ++ [⟨.busWriteError, none⟩]) ∧
    (∃ t, exec .reset (start T4x2 [.ok, .ok, .ok]) = .next t ∧ t.answers ≠ [] ++ [⟨.busWriteError, none⟩]) ∧
    (∃ t, exec .init (start T4x2 (List.replicate 18 .ok)) = .next t ∧ t.answers ≠ [] ++ [⟨.busWriteError, none⟩]) ∧
    (∃ t, exec (.remap 0x51) (ready T4x2 [.ok]) = .next t ∧ t.answers ≠ [] ++ [⟨.busWriteError, none⟩]) ∧
    (∃ t, exec .flush (ready T4x2 [.ok]) = .next t ∧ t.answers ≠ [] ++ [⟨.busWriteError, none⟩]) ∧
    Instr.sends? (.remap 0x51) = some (.remap 0x51) ∧ Instr.draws (.clear 0) = true :=
  ⟨⟨_, rfl, by decide⟩, ⟨_, rfl, by decide⟩, ⟨_, rfl, by decide⟩, ⟨_, rfl, by decide⟩, ⟨_, rfl, by decide⟩,
    by decide, by decide⟩

/-- One outcome for each line of R183's table. -/
theorem witness_PanelFollowsItsTable :
    (∃ t, exec .displayOn (ready T4x2 [.err]) = .next t ∧ t.answers = [] ++ [⟨.busWriteError, none⟩]) ∧
    (∃ t, exec .reset (ready T4x2 [.ok, .ok, .ok]) = .next t) ∧
    (∃ t, exec (.contrast 9) (ready T4x2 [.ok]) = .next t ∧ t.answers ≠ [] ++ [⟨.busWriteError, none⟩] ∧
      t.panel = .image []) ∧
    (∃ t, exec .flush (ready T2x1 [.ok]) = .next t ∧ t.answers ≠ [] ++ [⟨.busWriteError, none⟩] ∧
      t.panel = .image [[0, 0]]) ∧
    (∃ t, exec .bbox (ready T4x2 []) = .next t) :=
  ⟨⟨_, rfl, by decide⟩, ⟨_, rfl⟩, ⟨_, rfl, by decide, by decide⟩, ⟨_, rfl, by decide, by decide⟩, ⟨_, rfl⟩⟩

theorem witness_InitializedNeedsResetThenInit :
    (∃ t, exec .init { start T4x2 (List.replicate 18 .ok) with phase := .reset } = .next t ∧
      t.phase = .initialized) ∧
    (∃ t, exec .reset (start T4x2 [.ok, .ok, .ok]) = .next t ∧ t.phase = .reset) :=
  ⟨⟨_, rfl, by decide⟩, ⟨_, rfl, by decide⟩⟩

theorem witness_StepKeepsFramebufferForm :
    FbInv { start T4x2 [] with fb := bufferP4, requests := [[0x05, 0x0F]] } ∧
    ∃ t, step { start T4x2 [] with fb := bufferP4, requests := [[0x05, 0x0F]] } = .next t := ⟨by decide, _, rfl⟩

/-- The history RESET, INIT, FLUSH of the buffer `[F0]` on the geometry (2, 1). -/
def shownTrace : List Event := resetEvents ++ initEvents T2x1 ++ [.data [0xF0] .ok]

/-- The state after that history. -/
def shownState : State :=
  { start T2x1 [.ok] with
    fb := [(0, 0xF0)], phase := .initialized, res := .high, panel := .image [[0xF, 0x0]], trace := shownTrace
    requests := [[0x03]] }

theorem shown_ready : ControllerReady T2x1 Config.neutralDefault (resetEvents ++ initEvents T2x1) :=
  ⟨resetEvents, [], by simp, ⟨[], [], by simp, by simp⟩, by simp⟩

theorem shown_lastBlock : LastBlockShown T2x1 Config.neutralDefault shownTrace [0xF0] :=
  ⟨resetEvents ++ initEvents T2x1, [], by simp [shownTrace], shown_ready, by decide, by simp⟩

/-- A state in which every claim of the ghost values is made and backed. -/
theorem witness_StepKeepsGhostHistory :
    GhostHistory shownState ∧ ∃ t, step shownState = .next t := by
  refine ⟨⟨fun h => absurd h (by decide), fun _ => ?_, by decide,
    fun rows h => ⟨by decide, [0xF0], shown_lastBlock, ?_⟩⟩, _, rfl⟩
  · exact ⟨resetEvents, [.data [0xF0] .ok], rfl, ⟨[], [], by simp, by simp⟩,
      fun e he => .inr ⟨[0xF0], by simpa using he, by decide⟩⟩
  · have : rows = [[0xF, 0x0]] := by simpa [shownState] using h.symm
    rw [this]; decide

theorem witness_StepKeepsBusDiscipline :
    TraceDisciplined { start T4x2 [.ok] with trace := [.cmd [0x81, 0x80] .ok, .delay 100], requests := [[0x03]] } ∧
    ∃ t, step { start T4x2 [.ok] with trace := [.cmd [0x81, 0x80] .ok, .delay 100], requests := [[0x03]] } = .next t := by
  refine ⟨fun e he => ?_, _, rfl⟩
  rcases (by simpa using he : e = .cmd [0x81, 0x80] .ok ∨ e = .delay 100) with rfl | rfl
  · exact ⟨.contrast 0x80, rfl⟩
  · rfl

theorem witness_StepKeepsResetLine :
    ResFollowsTrace { start T4x2 [.err] with res := .low, trace := [.line .high .ok, .line .low .ok], requests := [[0]] } ∧
    ∃ t, step { start T4x2 [.err] with res := .low, trace := [.line .high .ok, .line .low .ok], requests := [[0]] }
      = .next t := ⟨rfl, _, rfl⟩

/-- The last complete block a history delivered. -/
def lastBlock (trace : List Event) : Option (List Byte) :=
  trace.reverse.findSome? (fun e => match e with
    | .data d .ok => some d
    | .data _ .err => none
    | .cmd _ _ => none
    | .line _ _ => none
    | .delay _ => none)

/-- A display memory that shows the last complete block as PANEL-MAP says. -/
def idealMemory (g : Geometry) (trace : List Event) (x y : Nat) : Nibble :=
  match lastBlock trace with
  | some d => unpackAt g d x y
  | none => 0

theorem idealMemory_panelMap (g : Geometry) (neutral : List CommandKind) :
    PanelMap g neutral (idealMemory g) := by
  rintro trace d ⟨pre, post, rfl, -, -, hpost⟩ x y - -
  have hp : ∀ e ∈ post.reverse, (match e with
      | Event.data d .ok => some d
      | .data _ .err => none
      | .cmd _ _ => none
      | .line _ _ => none
      | .delay _ => none) = none := by
    intro e he
    obtain ⟨c, rfl, -⟩ := hpost e (List.mem_reverse.mp he)
    rfl
  have hl : lastBlock (pre ++ [.data d .ok] ++ post) = some d := by
    rw [lastBlock, List.reverse_append, List.findSome?_append, List.findSome?_eq_none_iff.mpr hp]
    simp
  rw [idealMemory, hl]

theorem witness_PanelMapMakesTheImageTrue :
    GhostHistory shownState ∧ PanelMap shownState.geom shownState.neutral (idealMemory T2x1) ∧
    shownState.panel = .image [[0xF, 0x0]] ∧ 1 < shownState.geom.W ∧ 0 < shownState.geom.H :=
  ⟨witness_StepKeepsGhostHistory.1, idealMemory_panelMap _ _, rfl, by decide, by decide⟩

theorem witness_BringUpShowsTheBuffer :
    (∀ i ∈ [Instr.drawpixel 0 0 0xF, .clear 3], Instr.draws i = true) ∧
    (∀ i ∈ [Instr.drawbatch []], Instr.draws i = true) ∧
    (∀ k < 22, (start T2x1 (List.replicate 22 .ok)).answerAt k = .ok) ∧ inBounds T2x1 1 0 = true := by decide

end Sys2Proof.Tests
end

/-! PROOFS. The ghost values of 10_state.md: RES against TRACE (R27), `phase` against its table (R26), and the
controller's registers after INIT (R34). -/

namespace Sys2Proof.Machine

/-! ### What sending one command leaves -/

@[simp] theorem res_afterSending (k : CommandKind) (bytes : List Byte) (s : State) :
    (afterSending k bytes s).res = s.res := by
  unfold afterSending; split <;> rfl

@[simp] theorem trace_afterSending (k : CommandKind) (bytes : List Byte) (s : State) :
    (afterSending k bytes s).trace = s.trace ++ [.cmd bytes (s.answerAt 0)] := by
  unfold afterSending; split <;> simp [*]

theorem afterSending_of_ok {k : CommandKind} {bytes : List Byte} {s : State} (h : s.answerAt 0 = .ok) :
    (afterSending k bytes s).answers = s.answers ++ [⟨.ok, none⟩] ∧
      (afterSending k bytes s).phase = phaseAfterSend s.neutral k s.phase := by
  simp [afterSending, h, phaseAfterSend]

theorem afterSending_of_err {k : CommandKind} {bytes : List Byte} {s : State} (h : s.answerAt 0 = .err) :
    (afterSending k bytes s).answers = s.answers ++ [⟨.busWriteError, none⟩] ∧
      (afterSending k bytes s).phase = .uncommitted := by
  simp [afterSending, h]

/-! ### RES follows the reset-line events (R27) -/

/-- From `s` to `t` TRACE grew by some events, and RES went where they say (R27). -/
def ResFollowsNewEvents (s t : State) : Prop :=
  ∃ events, t.trace = s.trace ++ events ∧ t.res = events.foldl resAfterEvent s.res

theorem resFollowsNewEvents_of_eq {s t : State} (htrace : t.trace = s.trace) (hres : t.res = s.res) :
    ResFollowsNewEvents s t := ⟨[], by simp [htrace], by simp [hres]⟩

/-- What `RES` says of TRACE stays true when both follow the same new events. -/
theorem ResFollowsNewEvents.resFollowsTrace {s t : State} (h : ResFollowsNewEvents s t) (hs : ResFollowsTrace s) :
    ResFollowsTrace t := by
  obtain ⟨events, htrace, hres⟩ := h
  rw [ResFollowsTrace, htrace, List.foldl_append, ← hs, hres]

/-- An operation made of calls moves RES by its events only, when its `ok` ending leaves RES and TRACE alone. -/
theorem finish_runCalls_resFollowsNewEvents (cs : List Call) (s : State) {onOk : State → State}
    (htrace : ∀ u, (onOk u).trace = u.trace) (hres : ∀ u, (onOk u).res = u.res) :
    ResFollowsNewEvents s (finish (runCalls cs s) onOk) := by
  rcases finish_runCalls_cases cs s onOk with ⟨-, heq⟩ | ⟨done, c, rest, -, -, -, -, heq⟩
  · exact ⟨cs.map (Call.event .ok), by simp [heq, htrace], by simp [heq, hres]⟩
  · exact ⟨done.map (Call.event .ok) ++ [c.event .err], by simp [heq], by simp [heq]⟩

/-- Every instruction moves RES by the reset-line events it appends to TRACE (R27). -/
theorem exec_resFollowsNewEvents {i : Instr} {s t : State} (h : exec i s = .next t) : ResFollowsNewEvents s t := by
  rcases exec_cases h with ⟨c, -, rfl⟩ | ⟨-, rfl⟩ | ⟨-, rfl⟩ | ⟨-, -, rfl⟩ | ⟨-, -, rfl⟩ | ⟨-, rfl⟩ | ⟨-, rfl⟩
  · exact ⟨_, trace_afterSending _ _ _, res_afterSending _ _ _⟩
  · exact finish_runCalls_resFollowsNewEvents resetCalls (s.setPanel .unknown) (fun _ => rfl) (fun _ => rfl)
  · exact finish_runCalls_resFollowsNewEvents (initCalls s.geom) (s.setPanel .unknown) (fun _ => rfl) (fun _ => rfl)
  · exact ⟨[.data _ .ok], rfl, rfl⟩
  · exact ⟨[.data _ .err], rfl, rfl⟩
  · exact resFollowsNewEvents_of_eq rfl rfl
  · exact resFollowsNewEvents_of_eq rfl rfl

/-- Settles O57: a step either does nothing or runs one instruction, which moves RES by its own events. -/
theorem stepKeepsResetLine : Obligations.StepKeepsResetLine := by
  intro s t hs h
  rcases step_cases h with ⟨-, rfl⟩ | ⟨record, rest, i, left, -, -, hexec⟩
  · exact hs
  · exact (exec_resFollowsNewEvents hexec).resFollowsTrace hs

/-! ### `phase` after every operation (R26) -/

/-- `phase` after an instruction that did not answer `BusWriteError`: the rows of R26's table. -/
def phaseAfterOk (s : State) : Instr → Phase
  | .reset => .reset
  | .init => phaseAfterInit s.phase
  | i =>
    match Instr.sends? i with
    | some c => phaseAfterSend s.neutral c.kind s.phase
    | none => s.phase

theorem phaseAfterOk_of_sends {i : Instr} {c : Command} (h : Instr.sends? i = some c) (s : State) :
    phaseAfterOk s i = phaseAfterSend s.neutral c.kind s.phase := by
  cases i with
  | reset | init => simp [Instr.sends?] at h
  | _ => simp only [phaseAfterOk, h]

theorem phaseAfterOk_of_keeps {i : Instr} (h : i = .flush ∨ i = .bbox ∨ Instr.draws i = true) (s : State) :
    phaseAfterOk s i = s.phase := by
  cases i with
  | flush | bbox | drawpixel | clear | drawbatch => rfl
  | _ => simp [Instr.draws] at h

theorem phaseAfterInit_eq_ite (p : Phase) :
    phaseAfterInit p = if p = .uncommitted then .uncommitted else .initialized := by
  cases p <;> rfl

/-- From `s` to `t` one answer was given: `BusWriteError` with `phase` withdrawn (R206), or another one with `phase` at
`p`. -/
def AnswersWithPhase (s t : State) (p : Phase) : Prop :=
  (t.answers = s.answers ++ [⟨.busWriteError, none⟩] ∧ t.phase = .uncommitted) ∨
  (t.answers ≠ s.answers ++ [⟨.busWriteError, none⟩] ∧ t.phase = p)

/-- An answer other than `BusWriteError`, as the second case of `AnswersWithPhase` asks for it. -/
theorem answersWithPhase_of_reply_ok {s t : State} {box : Option Box}
    (h : t.answers = s.answers ++ [⟨.ok, box⟩]) : AnswersWithPhase s t t.phase :=
  .inr ⟨by simp [h], rfl⟩

/-- An operation made of calls ends with its own `phase` or withdraws it. -/
theorem finish_runCalls_answersWithPhase (cs : List Call) (s : State) {onOk : State → State} {p : Phase}
    (hanswers : ∀ u, (onOk u).answers = u.answers) (hphase : ∀ u, (onOk u).phase = p) :
    AnswersWithPhase s (finish (runCalls cs s) onOk) p := by
  rcases finish_runCalls_cases cs s onOk with ⟨-, heq⟩ | ⟨done, c, rest, -, -, -, -, heq⟩
  · exact .inr ⟨by simp [heq, hanswers], by simp [heq, hphase]⟩
  · exact .inl ⟨by simp [heq], by simp [heq]⟩

theorem afterSending_answersWithPhase (k : CommandKind) (bytes : List Byte) (s : State) :
    AnswersWithPhase s (afterSending k bytes s) (phaseAfterSend s.neutral k s.phase) := by
  cases h : s.answerAt 0 with
  | ok =>
    obtain ⟨hanswers, hphase⟩ := afterSending_of_ok (k := k) (bytes := bytes) h
    exact hphase ▸ answersWithPhase_of_reply_ok hanswers
  | err => exact .inl (afterSending_of_err h)

/-- R26's table for every instruction that answers: `phaseAfterOk`, or `Uncommitted` after `BusWriteError`. -/
theorem exec_answersWithPhase {i : Instr} {s t : State} (h : exec i s = .next t) :
    AnswersWithPhase s t (phaseAfterOk s i) := by
  rcases exec_cases h with ⟨c, hc, rfl⟩ | ⟨rfl, rfl⟩ | ⟨rfl, rfl⟩ | ⟨rfl, -, rfl⟩ | ⟨rfl, -, rfl⟩ | ⟨rfl, rfl⟩ |
    ⟨hd, rfl⟩
  · rw [phaseAfterOk_of_sends hc]
    exact afterSending_answersWithPhase c.kind c.encode s
  · exact finish_runCalls_answersWithPhase resetCalls (s.setPanel .unknown) (fun _ => rfl) (fun _ => rfl)
  · exact finish_runCalls_answersWithPhase (initCalls s.geom) (s.setPanel .unknown) (fun _ => rfl) (fun _ => rfl)
  · exact answersWithPhase_of_reply_ok rfl
  · exact .inl ⟨rfl, rfl⟩
  · exact answersWithPhase_of_reply_ok rfl
  · rw [phaseAfterOk_of_keeps (.inr (.inr hd))]
    exact answersWithPhase_of_reply_ok rfl

/-- Settles O51: every instruction ends by `phaseAfterOk` or by `BusWriteError`, and each row of R26's table is one
clause of `phaseAfterOk`. -/
theorem phaseFollowsItsTable : Obligations.PhaseFollowsItsTable := by
  intro i s t h
  rcases exec_answersWithPhase h with ⟨hanswers, hphase⟩ | ⟨hanswers, hphase⟩
  · exact ⟨fun _ => hphase, fun hne => absurd hanswers hne⟩
  · refine ⟨fun herr => absurd herr hanswers, fun _ => ⟨?_, ?_, ?_, ?_⟩⟩ <;> rw [hphase]
    · rintro rfl; rfl
    · rintro rfl; exact phaseAfterInit_eq_ite s.phase
    · exact fun c hc => phaseAfterOk_of_sends hc s
    · exact fun hkeeps => phaseAfterOk_of_keeps hkeeps s

/-! ### The controller's registers after INIT (R34) -/

/-- The decoder of R130 gives back an encoded command and the bytes behind it. -/
@[simp] theorem commandDecode_encode_append (c : Command) (rest : List Byte) :
    Command.decode (c.encode ++ rest) = .ok (c, rest) := by
  simp only [Command.encode, Command.decode, List.cons_append, ofOpcode_opcode]
  cases c <;> rfl

/-- The event of a command the controller took. -/
def Command.delivered (c : Command) : Event := .cmd c.encode .ok

/-- A delivered command writes its own register and no other (R34). -/
theorem lastWriteAfter_delivered (r : ControllerRegister) (known : Option Command) (c : Command) :
    lastWriteAfter r known (Command.delivered c) = if CommandKind.register c.kind = r then some c else known := by
  have hdecode : Command.decode c.encode = .ok (c, []) := by simpa using commandDecode_encode_append c []
  simp only [Command.delivered, lastWriteAfter, hdecode]

/-- After delivered commands a register holds the last of them that writes it, or what it held before. -/
theorem lastWrite_append_delivered (r : ControllerRegister) (trace : List Event) (cs : List Command) :
    Controller.lastWrite r (trace ++ cs.map Command.delivered) =
      (cs.reverse.find? (fun c => CommandKind.register c.kind = r)).or (Controller.lastWrite r trace) := by
  induction cs using List.reverseRecOn with
  | nil => simp
  | append_singleton cs c ih =>
    have hlast : Controller.lastWrite r (trace ++ (cs ++ [c]).map Command.delivered) =
        lastWriteAfter r (Controller.lastWrite r (trace ++ cs.map Command.delivered)) (Command.delivered c) := by
      simp [Controller.lastWrite, List.foldl_append]
    rw [hlast, lastWriteAfter_delivered, ih, List.reverse_append]
    by_cases hr : CommandKind.register c.kind = r <;> simp [hr]

/-- INIT with every call answered `ok` delivers `INIT_SEQ` and moves `phase` by its table (R141). -/
theorem exec_init_of_ok {s : State} (h : ∀ k < 18, s.answerAt k = .ok) :
    exec .init s = .next (answerOk
      (((s.setPanel .unknown).afterCalls ((initSeq s.geom).map Command.delivered) 18).setPhase
        (phaseAfterInit s.phase))) := by
  have hcalls := runCalls_all_ok (initCalls s.geom) (s.setPanel .unknown) h
  rw [exec_init_eq, hcalls]
  rfl

/-- Settles O26: INIT delivers `INIT_SEQ`, and R34's column is the last command of it for each register. -/
theorem initProgramsEveryRegister : Obligations.InitProgramsEveryRegister := by
  intro s h
  refine ⟨_, exec_init_of_ok h, fun r => ?_⟩
  rw [trace_answerOk, State.trace_setPhase, trace_afterCalls, lastWrite_append_delivered]
  cases r <;> rfl

end Sys2Proof.Machine

/-! PROOFS. The memory family of 20_memory.md: pixels outside the box are dropped (R58), and the operations of the bus
side ignore FB (R59). -/

namespace Sys2Proof.Machine

/-! ### Out-of-bounds pixels (R58) -/

/-- The bounds test as R58 writes it, on signed values. -/
theorem inBounds_iff_toInt (g : Geometry) (x y : Coord) :
    inBounds g x y = true ↔ (0 ≤ x.toInt ∧ x.toInt < g.W ∧ 0 ≤ y.toInt ∧ y.toInt < g.H) := by
  simp only [inBounds, Bool.and_eq_true, decide_eq_true_eq, and_assoc]

theorem inBounds_of_negative {g : Geometry} {x y : Coord} (h : x.toInt < 0 ∨ y.toInt < 0) :
    inBounds g x y = false := by
  rw [Bool.eq_false_iff, Ne, inBounds_iff_toInt]
  omega

/-- The column just right of the box is out of bounds in every row. -/
theorem inBounds_width (g : Geometry) (y : Coord) : inBounds g (BitVec.ofNat 32 g.W) y = false := by
  obtain ⟨-, -, hW, -⟩ := g.legal
  rw [Bool.eq_false_iff, Ne, inBounds_iff_toInt, toInt_ofNat (by omega)]
  omega

/-- Past the end of a row the index runs on into the next row (R52). -/
theorem pixelIndex_width (g : Geometry) (y : Nat) : pixelIndex g g.W y = pixelIndex g 0 (y + 1) := by
  simp only [pixelIndex]
  ring

theorem drawnFb_of_not_inBounds {g : Geometry} {p : Pixel} (h : inBounds g p.x p.y = false) (m : Memory) :
    drawnFb g m p = m := by
  simp [drawnFb, h]

@[simp] theorem drawnAll_append (g : Geometry) (m : Memory) (pre post : List Pixel) :
    drawnAll g m (pre ++ post) = drawnAll g (drawnAll g m pre) post :=
  List.foldl_append

/-- An out-of-bounds entry of a batch is as if it were not there (D15). -/
theorem drawnAll_drop_not_inBounds {g : Geometry} {p : Pixel} (h : inBounds g p.x p.y = false) (m : Memory)
    (pre post : List Pixel) : drawnAll g m (pre ++ p :: post) = drawnAll g m (pre ++ post) := by
  rw [drawnAll_append, drawnAll_append, drawnAll_cons, drawnFb_of_not_inBounds h]

/-- Settles O32: out of bounds `drawnFb` is the identity, for one pixel and inside a batch; the test reads the
coordinates and not the index, which at `(W, 0)` is that of `(0, 1)`. -/
theorem outOfBoundsPixelsAreDropped : Obligations.OutOfBoundsPixelsAreDropped := by
  refine ⟨inBounds_iff_toInt, fun x y v s h => ?_, fun pre post p s h => ?_, fun g => ?_,
    fun g x y h => inBounds_of_negative h⟩
  · rw [exec_drawpixel_eq, drawnFb_of_not_inBounds (p := ⟨x, y, v⟩) h]
    rfl
  · rw [exec_drawbatch_eq, exec_drawbatch_eq, drawnAll_drop_not_inBounds h]
  · have hindex : pixelIndex g g.W 0 = pixelIndex g 0 1 := pixelIndex_width g 0
    have hW : 0 < g.W := Nat.lt_of_lt_of_le Nat.two_pos g.legal.2.1
    exact ⟨inBounds_width g 0, hindex, fun hH => hindex ▸ pixelIndex_lt g hW hH⟩

/-! ### Operations that ignore FB (R59) -/

/-- A sequence of calls reads no byte of FB and carries FB along. -/
theorem runCalls_setFb (cs : List Call) (m : Memory) (s : State) :
    runCalls cs (s.setFb m) = ((runCalls cs s).1, (runCalls cs s).2.setFb m) := by
  induction cs generalizing s with
  | nil => rfl
  | cons c rest ih =>
    have hanswer : c.answerIn (s.setFb m) = c.answerIn s := rfl
    rw [runCalls_cons, runCalls_cons, hanswer]
    cases c.answerIn s with
    | ok => exact ih (s.afterCalls [c.event .ok] _)
    | err => rfl

/-- An operation made of calls ignores FB when its `ok` ending does. -/
theorem finish_runCalls_setFb (cs : List Call) (m : Memory) (s : State) {onOk : State → State}
    (hok : ∀ u, onOk (u.setFb m) = (onOk u).setFb m) :
    finish (runCalls cs (s.setFb m)) onOk = (finish (runCalls cs s) onOk).setFb m := by
  rw [runCalls_setFb]
  cases hr : (runCalls cs s).1 with
  | ok => simp only [finish, hr, hok]; rfl
  | err => simp only [finish, hr]; rfl

theorem afterSending_setFb (k : CommandKind) (bytes : List Byte) (m : Memory) (s : State) :
    afterSending k bytes (s.setFb m) = (afterSending k bytes s).setFb m := by
  cases h : s.answerAt 0 <;> simp only [afterSending, answerAt_setFb, h] <;> rfl

/-- With another FB an instruction that neither flushes nor draws does the same and leaves that FB (R59). -/
theorem exec_setFb {i : Instr} (hflush : i ≠ .flush) (hdraws : Instr.draws i = false) (m : Memory) (s : State) :
    exec i (s.setFb m) = mapNext (State.setFb m) (exec i s) := by
  rcases instr_kinds i with ⟨c, hc⟩ | ⟨sel, a, b, rfl, hsel⟩ | rfl | rfl | rfl | rfl | hd
  · rw [exec_sends hc, exec_sends hc, afterSending_setFb]
    rfl
  · rw [exec_sendcmd_refused hsel, exec_sendcmd_refused hsel]
    rfl
  · exact congrArg Host.Outcome.next (finish_runCalls_setFb resetCalls m (s.setPanel .unknown) fun _ => rfl)
  · exact congrArg Host.Outcome.next (finish_runCalls_setFb (initCalls s.geom) m (s.setPanel .unknown) fun _ => rfl)
  · exact absurd rfl hflush
  · rfl
  · rw [hdraws] at hd
    cases hd

/-- The frame of R59 is noninterference at the state's own FB: what leaves every FB leaves that one. -/
theorem fb_of_exec_next {i : Instr} {s t : State} (hflush : i ≠ .flush) (hdraws : Instr.draws i = false)
    (h : exec i s = .next t) : t.fb = s.fb := by
  have hself : exec i s = mapNext (State.setFb s.fb) (exec i s) := exec_setFb hflush hdraws s.fb s
  rw [h] at hself
  have ht : t = t.setFb s.fb := Host.Outcome.next.inj hself
  rw [ht, State.fb_setFb]

/-- Settles O49: the same outcome with any FB, and that FB left as it was. -/
theorem busOperationsIgnoreTheFramebuffer : Obligations.BusOperationsIgnoreTheFramebuffer :=
  fun _ s m hflush hdraws => ⟨exec_setFb hflush hdraws m s, fun _ h => fb_of_exec_next hflush hdraws h⟩

end Sys2Proof.Machine

/-! PROOFS. The encoding family of 30_encoding.md: operand bytes are copied (R82), SENDCMD of a port triple (R91), and
INIT as the SENDCMDs of its commands (R93 a). -/

namespace Sys2Proof.Machine

/-! ### The bytes of a command and what its row sends (R80, R82) -/

/-- A command built from two operand bytes has the bytes of its format (R80). -/
@[simp] theorem encode_build (k : CommandKind) (a b : Byte) :
    (k.build a b).encode = bytesOfFormat k.format k.opcode a b := by
  cases k <;> rfl

@[simp] theorem sends?_ofCommand (c : Command) : Instr.sends? (Instr.ofCommand c) = some c := by
  cases c <;> rfl

/-- Settles O4: the bytes are those of the format, and the command row sends the command's bytes. -/
theorem operandBytesAreCopied : Obligations.OperandBytesAreCopied := by
  refine fun k a b => ⟨encode_build k a b, fun s => ⟨_, exec_sends (sends?_ofCommand _) s, ?_⟩⟩
  rw [trace_afterSending, encode_build]

/-! ### SENDCMD of a port triple (R91) -/

/-- Settles O18: a port triple with a variant's opcode sends the command built of it. -/
theorem sendcmdSendsPortCommand : Obligations.SendcmdSendsPortCommand := by
  intro k a b s
  have hsends : Instr.sends? (.sendcmd k.opcode a b) = some (k.build a b) := ofPort_opcode k a b
  rw [exec_sends hsends, kind_build, encode_build]

/-- A byte that is no variant's opcode names no variant (R85). -/
theorem ofOpcode_eq_none {b : Byte} (h : ∀ k : CommandKind, b ≠ k.opcode) : CommandKind.ofOpcode b = none :=
  Option.eq_none_iff_forall_ne_some.2 fun k hk => h k (opcode_of_ofOpcode hk).symm

/-- Settles O19: such a selector names no variant, so there is no command to send. -/
theorem sendcmdRefusesOtherSelectors : Obligations.SendcmdRefusesOtherSelectors :=
  fun _ _ _ s h => exec_sendcmd_refused (ofOpcode_eq_none h) s

/-! ### INIT as the SENDCMDs of its commands (R93 a)

INIT and the SENDCMDs differ in `phase`, PANEL and the number of answers to the host. They are compared on what R93
names, and that comparison goes on from one command to the next. -/

/-- Equal in what the bus side and FB show: TRACE, FB, RES, the coming answers and the waiting requests (R93 a). -/
structure SameOnBus (s t : State) : Prop where
  trace : s.trace = t.trace
  fb : s.fb = t.fb
  res : s.res = t.res
  oracle : s.oracle = t.oracle
  callNo : s.callNo = t.callNo
  requests : s.requests = t.requests

theorem SameOnBus.trans {s t u : State} (h : SameOnBus s t) (h' : SameOnBus t u) : SameOnBus s u :=
  ⟨h.trace.trans h'.trace, h.fb.trans h'.fb, h.res.trans h'.res, h.oracle.trans h'.oracle, h.callNo.trans h'.callNo,
    h.requests.trans h'.requests⟩

theorem SameOnBus.answerAt_eq {s t : State} (h : SameOnBus s t) (k : Nat) : s.answerAt k = t.answerAt k := by
  simp only [State.answerAt, h.oracle, h.callNo]

theorem SameOnBus.afterCalls {s t : State} (h : SameOnBus s t) (es : List Event) (n : Nat) :
    SameOnBus (s.afterCalls es n) (t.afterCalls es n) :=
  ⟨by simp [h.trace], h.fb, by simp [h.res], by simp [h.oracle], by simp [h.callNo], h.requests⟩

/-- What the host is answered when the last call was answered `r` (R30, R206). -/
def replyOf : Answer → Reply
  | .ok => ⟨.ok, none⟩
  | .err => ⟨.busWriteError, none⟩

/-- Sending a command is one call on the bus side. -/
theorem afterCalls_sameOnBus_afterSending (k : CommandKind) (bytes : List Byte) (s : State) :
    SameOnBus (s.afterCalls [.cmd bytes (s.answerAt 0)] 1) (afterSending k bytes s) := by
  cases h : s.answerAt 0 <;> constructor <;> simp [afterSending, h, resAfterEvent]

theorem answers_afterSending (k : CommandKind) (bytes : List Byte) (s : State) :
    (afterSending k bytes s).answers = s.answers ++ [replyOf (s.answerAt 0)] := by
  cases h : s.answerAt 0 with
  | ok => exact (afterSending_of_ok h).1
  | err => exact (afterSending_of_err h).1

/-- The first SENDCMD of a row of them: it ends the row exactly when its call answers `err`. -/
theorem sendUntilError_cons (c : Command) (rest : List Command) (s : State) :
    sendUntilError (c :: rest) s =
      match s.answerAt 0 with
      | .ok => sendUntilError rest (afterSending c.kind c.encode s)
      | .err => .next (afterSending c.kind c.encode s) := by
  rw [sendUntilError, exec_sends (sends?_ofCommand c)]
  cases h : s.answerAt 0 <;> simp [onNext, answers_afterSending, h, replyOf]

/-- The calls of an operation's commands and the SENDCMDs of these commands: the same on the bus, and the host's last
answer is the one the calls ask for. -/
theorem sendUntilError_follows_runCalls (cs : List Command) {s u : State} (h : SameOnBus s u)
    (hlast : cs = [] → u.answers.getLast? = some (replyOf .ok)) :
    ∃ v, sendUntilError cs u = .next v ∧
      SameOnBus (runCalls (cs.map fun c => .sendCommand c.encode) s).2 v ∧
      v.answers.getLast? = some (replyOf (runCalls (cs.map fun c => .sendCommand c.encode) s).1) := by
  induction cs generalizing s u with
  | nil => exact ⟨u, rfl, h, hlast rfl⟩
  | cons c rest ih =>
    have hsent := (h.afterCalls [.cmd c.encode (u.answerAt 0)] 1).trans
      (afterCalls_sameOnBus_afterSending c.kind c.encode u)
    have hreply : (afterSending c.kind c.encode u).answers.getLast? = some (replyOf (u.answerAt 0)) := by
      rw [answers_afterSending, List.getLast?_concat]
    have hanswer : (Call.sendCommand c.encode).answerIn s = u.answerAt 0 := h.answerAt_eq 0
    rw [List.map_cons, runCalls_cons, hanswer, sendUntilError_cons]
    cases hr : u.answerAt 0 <;> rw [hr] at hsent hreply
    · exact ih hsent fun _ => hreply
    · exact ⟨_, rfl, hsent, hreply⟩

/-- Ending an operation gives the host its answer and changes nothing on the bus side. -/
theorem finish_sameOnBus (r : Answer × State) {onOk : State → State} (hok : ∀ u, SameOnBus (onOk u) u)
    (hanswers : ∀ u, (onOk u).answers = u.answers) :
    SameOnBus (finish r onOk) r.2 ∧ (finish r onOk).answers = r.2.answers ++ [replyOf r.1] := by
  obtain ⟨answer, u⟩ := r
  cases answer with
  | ok =>
    obtain ⟨htrace, hfb, hres, horacle, hcallNo, hrequests⟩ := hok u
    exact ⟨⟨htrace, hfb, hres, horacle, hcallNo, hrequests⟩, congrArg (· ++ [replyOf .ok]) (hanswers u)⟩
  | err => exact ⟨⟨rfl, rfl, rfl, rfl, rfl, rfl⟩, rfl⟩

/-- Settles O25: INIT's calls and the SENDCMDs go together on the bus, and INIT's end changes nothing there. -/
theorem initIsEighteenSendcmds : Obligations.InitIsEighteenSendcmds := by
  intro s
  have hstart : SameOnBus (s.setPanel .unknown) s := ⟨rfl, rfl, rfl, rfl, rfl, rfl⟩
  obtain ⟨u, hu, hcalls, hlast⟩ := sendUntilError_follows_runCalls (initSeq s.geom) hstart nofun
  obtain ⟨hfinish, hanswers⟩ := finish_sameOnBus (runCalls (initCalls s.geom) (s.setPanel .unknown))
    (onOk := fun t => t.setPhase (phaseAfterInit s.phase)) (fun _ => ⟨rfl, rfl, rfl, rfl, rfl, rfl⟩) (fun _ => rfl)
  obtain ⟨htrace, hfb, hres, horacle, hcallNo, hrequests⟩ := hfinish.trans hcalls
  refine ⟨_, u, exec_init_eq s, hu, htrace, hfb, hres, horacle, hcallNo, hrequests, ?_⟩
  rw [hanswers, List.getLast?_concat, hlast]
  rfl

end Sys2Proof.Machine

/-! PROOFS. The command family of 40_command_encoder.md: encoding never fails, and sending raises the bus write error
exactly when its one call fails (R111). -/

namespace Sys2Proof.Machine

/-- An encoding starts with its opcode byte, so it is never empty. -/
theorem encode_ne_nil (c : Command) : c.encode ≠ [] := List.cons_ne_nil c.kind.opcode c.operands

theorem replyOf_eq_busWriteError_iff (r : Answer) : replyOf r = ⟨.busWriteError, none⟩ ↔ r = .err := by
  cases r <;> decide

theorem replyOf_eq_ok_iff (r : Answer) : replyOf r = ⟨.ok, none⟩ ↔ r = .ok := by
  cases r <;> decide

/-- Sending adds one answer, so it adds the reply `r` exactly when the call's answer asks for `r`. -/
theorem answers_afterSending_eq_iff (k : CommandKind) (bytes : List Byte) (s : State) (r : Reply) :
    (afterSending k bytes s).answers = s.answers ++ [r] ↔ replyOf (s.answerAt 0) = r := by
  rw [answers_afterSending, List.append_cancel_left_eq, List.singleton_inj]

/-- Settles O20: the command row is sending the command, which makes one call and replies as that call was answered. -/
theorem sendingRaisesIffItsCallFails : Obligations.SendingRaisesIffItsCallFails := by
  refine fun c s => ⟨encode_ne_nil c, _, exec_sends (sends?_ofCommand c) s, trace_afterSending _ _ _, ?_, ?_⟩
  · rw [answers_afterSending_eq_iff, replyOf_eq_busWriteError_iff]
  · rw [answers_afterSending_eq_iff, replyOf_eq_ok_iff]

end Sys2Proof.Machine

/-! PROOFS. The control family of 41_driver_control_ops.md: RESET (R140), INIT (R141, R142), the command rows (R143) and
FLUSH (R144), each with its whole next state. -/

namespace Sys2Proof.Machine

/-! ### An operation made of calls, by the coming answers (R13) -/

theorem finish_runCalls_of_ok {cs : List Call} {s : State} (h : ∀ k < fallibleCount cs, s.answerAt k = .ok)
    (onOk : State → State) :
    finish (runCalls cs s) onOk = answerOk (onOk (s.afterCalls (cs.map (Call.event .ok)) (fallibleCount cs))) := by
  rw [runCalls_all_ok cs s h]
  rfl

/-- The calls behind the first failing one are not made (R13, R206). -/
theorem finish_runCalls_of_err (done : List Call) {c : Call} (rest : List Call) {s : State} (hc : c.fallible = true)
    (hok : ∀ k < fallibleCount done, s.answerAt k = .ok) (herr : s.answerAt (fallibleCount done) = .err)
    (onOk : State → State) :
    finish (runCalls (done ++ c :: rest) s) onOk =
      raiseBusWriteError
        (s.afterCalls (done.map (Call.event .ok) ++ [c.event .err]) (fallibleCount done + 1)) := by
  rw [runCalls_first_err done c rest s hc hok herr]
  rfl

/-! ### RESET (R140) -/

/-- Settles O21: all six calls of RESET are made, and RES follows the last line event. -/
theorem resetPulsesTheLine : Obligations.ResetPulsesTheLine := by
  intro s h
  have hcalls : ∀ k < fallibleCount resetCalls, (s.setPanel .unknown).answerAt k = .ok := h
  rw [exec_reset_eq, finish_runCalls_of_ok hcalls]
  rfl

/-- RESET whose line call behind `done` is the first to fail. -/
theorem exec_reset_of_err (done : List Call) (level : LineLevel) (rest : List Call) {s : State}
    (hcalls : resetCalls = done ++ .setLine level :: rest) (hok : ∀ j < fallibleCount done, s.answerAt j = .ok)
    (herr : s.answerAt (fallibleCount done) = .err) :
    exec .reset s = .next (raiseBusWriteError ((s.setPanel .unknown).afterCalls
      (done.map (Call.event .ok) ++ [.line level .err]) (fallibleCount done + 1))) := by
  rw [exec_reset_eq, hcalls]
  exact congrArg Host.Outcome.next
    (finish_runCalls_of_err (c := .setLine level) (s := s.setPanel .unknown) done rest rfl hok herr _)

/-- Settles O22: each of the three line calls, with the calls before it answered `ok`. -/
theorem resetStopsAtFailingCall : Obligations.ResetStopsAtFailingCall := by
  intro s k hk hok herr
  obtain rfl | rfl | rfl : k = 0 ∨ k = 1 ∨ k = 2 := by omega
  · exact exec_reset_of_err [] .high _ rfl hok herr
  · exact exec_reset_of_err [.setLine .high, .delay Config.resetDelay] .low _ rfl hok herr
  · exact exec_reset_of_err [.setLine .high, .delay Config.resetDelay, .setLine .low, .delay Config.resetDelay]
      .high _ rfl hok herr

/-! ### INIT (R141, R142) -/

/-- Settles O23: the delivered commands of `INIT_SEQ` are the 18 byte lists of R142's table. -/
theorem initSendsItsSequence : Obligations.InitSendsItsSequence := by
  intro s h
  have hbytes : (initSeq s.geom).map Command.delivered = (initBytes s.geom).map (fun bytes => .cmd bytes .ok) := rfl
  rw [exec_init_of_ok h, phaseAfterInit_eq_ite, hbytes]
  rfl

theorem fallibleCount_map_sendCommand (bytes : List (List Byte)) :
    fallibleCount (bytes.map .sendCommand) = bytes.length := by
  induction bytes with
  | nil => rfl
  | cons b rest ih =>
    rw [List.map_cons, fallibleCount_cons, ih, List.length_cons, Nat.add_comm]
    rfl

theorem map_event_map_sendCommand (r : Answer) (bytes : List (List Byte)) :
    (bytes.map .sendCommand).map (Call.event r) = bytes.map (fun b => .cmd b r) :=
  List.map_map

/-- Command events leave RES alone (R27). -/
theorem foldl_resAfterEvent_map_cmd (l : ResetLine) (r : Answer) (bytes : List (List Byte)) :
    (bytes.map (fun b => Event.cmd b r)).foldl resAfterEvent l = l := by
  rw [List.foldl_map]
  exact List.foldl_fixed bytes

/-- Step `k + 1` of INIT with the steps before and behind it. -/
theorem initCalls_split (g : Geometry) {k : Nat} (hk : k < 18) :
    initCalls g = ((initBytes g).take k).map .sendCommand ++
      .sendCommand ((initBytes g).getD k []) :: ((initBytes g).drop (k + 1)).map .sendCommand := by
  have hlen : k < (initBytes g).length := hk
  have hcalls : initCalls g = (initBytes g).map .sendCommand := rfl
  rw [hcalls, List.getD_eq_getElem _ _ hlen, ← List.map_cons, ← List.map_append, ← List.drop_eq_getElem_cons hlen,
    List.take_append_drop]

/-- Settles O24: INIT's calls are split at step `k + 1`, and its command events leave RES alone. -/
theorem initStopsAtFailingStep : Obligations.InitStopsAtFailingStep := by
  intro s k hk hok herr
  have hcount : fallibleCount (((initBytes s.geom).take k).map .sendCommand) = k := by
    rw [fallibleCount_map_sendCommand, List.length_take]
    exact Nat.min_eq_left (Nat.le_of_lt hk)
  rw [exec_init_eq, initCalls_split s.geom hk, finish_runCalls_of_err _ _ rfl (hcount.symm ▸ hok) (hcount.symm ▸ herr),
    hcount, map_event_map_sendCommand]
  refine congrArg Host.Outcome.next (State.ext_fields rfl rfl rfl rfl ?res rfl ?trace rfl rfl rfl rfl)
  case res =>
    rw [res_raiseBusWriteError, res_afterCalls, List.foldl_append, foldl_resAfterEvent_map_cmd]
    rfl
  case trace => exact (List.append_assoc _ _ _).symm

/-! ### The command rows (R143; entry 6) -/

/-- A command row is sending its command. -/
theorem exec_ofCommand (c : Command) (s : State) :
    exec (Instr.ofCommand c) s = .next (afterSending c.kind c.encode s) := exec_sends (sends?_ofCommand c) s

/-- Settles O15: the three rows send their one-byte encodings. -/
theorem commandsWithoutOperandSend : Obligations.CommandsWithoutOperandSend := fun s =>
  ⟨exec_ofCommand .displayOff s, exec_ofCommand .displayOn s, exec_ofCommand .normalDisplay s⟩

/-- Settles O16: the 13 rows send their two-byte encodings. -/
theorem commandsWithOneOperandSend : Obligations.CommandsWithOneOperandSend := fun v s =>
  ⟨exec_ofCommand (.contrast v) s, exec_ofCommand (.remap v) s, exec_ofCommand (.startLine v) s,
    exec_ofCommand (.displayOffset v) s, exec_ofCommand (.muxRatio v) s, exec_ofCommand (.phaseLength v) s,
    exec_ofCommand (.frontClockDivider v) s, exec_ofCommand (.functionSelectionA v) s,
    exec_ofCommand (.secondPrechargePeriod v) s, exec_ofCommand (.comDeselectVoltage v) s,
    exec_ofCommand (.prechargeVoltage v) s, exec_ofCommand (.functionSelectionB v) s,
    exec_ofCommand (.commandLock v) s⟩

/-- Settles O17: the two rows send their three-byte encodings. -/
theorem addressRangeCommandsSend : Obligations.AddressRangeCommandsSend := fun start stop s =>
  ⟨exec_ofCommand (.columnAddress start stop) s, exec_ofCommand (.rowAddress start stop) s⟩

/-! ### FLUSH (R144) -/

/-- One data call: its event and one answer used, RES as before (R27). -/
theorem afterCalls_data (s : State) (bytes : List Byte) (r : Answer) :
    s.afterCalls [.data bytes r] 1 =
      { s with trace := s.trace ++ [.data bytes r], oracle := s.oracle.tail, callNo := s.callNo + 1 } := by
  simp [State.afterCalls, resAfterEvent]

/-- Settles O27: FLUSH is one data call with the snapshot of FB, for either answer. -/
theorem flushSendsTheBuffer : Obligations.FlushSendsTheBuffer := by
  refine fun s => ⟨fun h => ?_, fun h => ?_⟩ <;>
  · rw [exec_flush_eq, h]
    simp only [afterCalls_data]
    rfl

end Sys2Proof.Machine

/-! PROOFS. The drawing family of 42_drawing_ops.md: nibble packing (R160, R161), DRAWPIXEL (R164), DRAWBATCH (R165),
CLEAR (R166), BBOX (R167), and their algebra on pixels (R168, R169). -/

namespace Sys2Proof.Machine

/-! ### The value of a byte from its nibbles (R10, R160, R161, R166) -/

theorem toNat_lowNibble (b : Byte) : (lowNibble b).toNat = b.toNat % 16 := by
  simp [lowNibble]

theorem toNat_highNibble (b : Byte) : (highNibble b).toNat = b.toNat / 16 := by
  have hb : b.toNat < 256 := b.isLt
  rw [highNibble, BitVec.extractLsb'_toNat, Nat.shiftRight_eq_div_pow]
  omega

theorem toNat_eq_nibbles (b : Byte) : b.toNat = (lowNibble b).toNat + 16 * (highNibble b).toNat := by
  rw [toNat_lowNibble, toNat_highNibble, Nat.mod_add_div]

theorem toNat_updateUpperHalf (b : Byte) (v : Nibble) :
    (updateUpperHalf b v).toNat = b.toNat % 16 + 16 * v.toNat := by
  rw [toNat_eq_nibbles, lowNibble_updateUpperHalf, highNibble_updateUpperHalf, toNat_lowNibble]

theorem toNat_updateLowerHalf (b : Byte) (v : Nibble) :
    (updateLowerHalf b v).toNat = b.toNat - b.toNat % 16 + v.toNat := by
  rw [toNat_eq_nibbles, lowNibble_updateLowerHalf, highNibble_updateLowerHalf, toNat_highNibble]
  omega

theorem toNat_clearByte (v : Nibble) : (clearByte v).toNat = 17 * v.toNat := by
  rw [toNat_eq_nibbles, lowNibble_clearByte, highNibble_clearByte]
  omega

/-- Settles O29: the value follows from the two nibbles. -/
theorem updateUpperHalfFormula : Obligations.UpdateUpperHalfFormula :=
  ⟨fun b v => ⟨rfl, toNat_updateUpperHalf b v, highNibble_updateUpperHalf b v, lowNibble_updateUpperHalf b v⟩, rfl⟩

/-- Settles O30: the value follows from the two nibbles. -/
theorem updateLowerHalfFormula : Obligations.UpdateLowerHalfFormula :=
  ⟨fun b v => ⟨rfl, toNat_updateLowerHalf b v, lowNibble_updateLowerHalf b v, highNibble_updateLowerHalf b v⟩, rfl⟩

/-! ### BBOX (R167) -/

/-- Settles O40: BBOX is its one reply. -/
theorem bboxReportsTheGeometry : Obligations.BboxReportsTheGeometry := exec_bbox_eq

/-! ### DRAWPIXEL (R164) -/

/-- In bounds, FB after one pixel is FB with one lane of one byte written. -/
theorem drawnFb_of_inBounds {g : Geometry} {p : Pixel} (h : inBounds g p.x p.y = true) (m : Memory) :
    drawnFb g m p = Memory.write m (coordIndex g p.x p.y)
      (updateLane p.x.toInt.toNat p.v (Memory.read m (coordIndex g p.x p.y))) := if_pos h

/-- For a column that is not negative the lane is chosen by the signed value as well (R172). -/
theorem updateLane_toInt {x : Coord} (h : 0 ≤ x.toInt) (v : Nibble) (b : Byte) :
    updateLane x.toInt.toNat v b = if x.toInt % 2 = 0 then updateUpperHalf b v else updateLowerHalf b v := by
  have hlane : x.toInt.toNat % 2 = 0 ↔ x.toInt % 2 = 0 := by omega
  simp only [updateLane, hlane]

/-- Settles O33: the memory is one write, at an index inside FB. -/
theorem drawpixelWritesOneLane : Obligations.DrawpixelWritesOneLane := by
  intro x y v s h
  have hx : 0 ≤ x.toInt := ((inBounds_iff s.geom x y).mp h).1
  refine ⟨drawnFb s.geom s.fb ⟨x, y, v⟩, exec_drawpixel_eq x y v s, coordIndex_lt h,
    fun a ha => read_drawnFb_of_ne fun _ => ha, ?_⟩
  rw [drawnFb_of_inBounds (p := ⟨x, y, v⟩) h, ← updateLane_toInt hx]
  exact (Memory.read_write _ _ _ _).trans (if_pos rfl)

/-! ### Pixels after drawing (R168) -/

theorem pix_of_inBounds {g : Geometry} {x y : Coord} (h : inBounds g x y = true) (m : Memory) :
    pix g m x y = some (laneOf x.toInt.toNat (Memory.read m (coordIndex g x y))) := if_pos h

/-- Two in-bounds pixels that share a byte and a lane are the same (R52). -/
theorem coord_eq_of_coordIndex_eq {g : Geometry} {x y x' y' : Coord} (h : inBounds g x y = true)
    (h' : inBounds g x' y' = true) (hindex : coordIndex g x y = coordIndex g x' y')
    (hlane : x.toInt.toNat % 2 = x'.toInt.toNat % 2) : x = x' ∧ y = y' := by
  obtain ⟨hx0, hxW, hy0, -⟩ := (inBounds_iff g x y).mp h
  obtain ⟨hx0', hxW', hy0', -⟩ := (inBounds_iff g x' y').mp h'
  obtain ⟨hx, hy⟩ := pixelIndex_injective g hxW hxW' hindex hlane
  exact ⟨coord_eq_of_toNat_eq hx0 hx0' hx, coord_eq_of_toNat_eq hy0 hy0' hy⟩

/-- After one pixel drawn, in bounds or not: the pixel it names reads its value, every other one as before. -/
theorem pix_drawnFb {g : Geometry} {x y : Coord} (h : inBounds g x y = true) (m : Memory) (p : Pixel) :
    pix g (drawnFb g m p) x y = if p.x = x ∧ p.y = y then some p.v else pix g m x y := by
  by_cases hp : inBounds g p.x p.y = true
  · rw [pix_of_inBounds h, pix_of_inBounds h, drawnFb_of_inBounds hp, Memory.read_write]
    by_cases hindex : coordIndex g x y = coordIndex g p.x p.y
    · rw [if_pos hindex, ← hindex]
      by_cases hlane : p.x.toInt.toNat % 2 = x.toInt.toNat % 2
      · obtain ⟨hx, hy⟩ := coord_eq_of_coordIndex_eq hp h hindex.symm hlane
        rw [if_pos ⟨hx, hy⟩, hx, laneOf_updateLane_same]
      · have hne : ¬ (p.x = x ∧ p.y = y) := fun heq => hlane (by rw [heq.1])
        rw [if_neg hne, laneOf_updateLane_other hlane]
    · have hne : ¬ (p.x = x ∧ p.y = y) := fun heq => hindex (by rw [heq.1, heq.2])
      rw [if_neg hindex, if_neg hne]
  · have hne : ¬ (p.x = x ∧ p.y = y) := fun heq => hp (by rw [heq.1, heq.2, h])
    rw [if_neg hne, drawnFb_of_not_inBounds (Bool.eq_false_iff.mpr hp)]

/-! ### DRAWBATCH (R165) -/

/-- After a batch the last entry that names an in-bounds pixel decides it (D15). -/
theorem pix_drawnAll {g : Geometry} {x y : Coord} (h : inBounds g x y = true) (m : Memory) (batch : List Pixel) :
    pix g (drawnAll g m batch) x y =
      ((batch.reverse.find? (fun p => p.x == x && p.y == y)).map Pixel.v).or (pix g m x y) := by
  induction batch using List.reverseRecOn with
  | nil => simp
  | append_singleton batch p ih =>
    rw [drawnAll_append, drawnAll_cons, drawnAll_nil, pix_drawnFb h, ih, List.reverse_concat]
    by_cases hp : p.x = x ∧ p.y = y
    · simp [hp]
    · rw [if_neg hp, List.find?_cons_of_neg (by simpa using hp)]

theorem read_drawnAll_of_ne {g : Geometry} {batch : List Pixel} {a : Nat}
    (h : ∀ p ∈ batch, inBounds g p.x p.y = true → coordIndex g p.x p.y ≠ a) (m : Memory) :
    Memory.read (drawnAll g m batch) a = Memory.read m a := by
  induction batch generalizing m with
  | nil => rfl
  | cons p rest ih =>
    obtain ⟨hp, hrest⟩ := List.forall_mem_cons.mp h
    rw [drawnAll_cons, ih hrest, read_drawnFb_of_ne fun hin => (hp hin).symm]

/-- DRAWPIXELs run one after another: the FB of the batch, and one answer for each (R169). -/
theorem runAll_drawpixels (batch : List Pixel) (s : State) :
    runAll (batch.map (fun p => .drawpixel p.x p.y p.v)) s =
      .next { s with
        fb := drawnAll s.geom s.fb batch
        answers := s.answers ++ List.replicate batch.length ⟨.ok, none⟩ } := by
  induction batch generalizing s with
  | nil => simp [runAll]
  | cons p rest ih =>
    rw [List.map_cons, runAll, exec_drawpixel_eq, onNext, ih, answers_answerOk, List.append_assoc,
      List.singleton_append, List.length_cons, List.replicate_succ]
    rfl

/-- Settles O36: both ways FB is drawn by the fold over the batch. -/
theorem drawbatchIsItsDrawpixels : Obligations.DrawbatchIsItsDrawpixels :=
  fun batch s => ⟨drawnAll s.geom s.fb batch, exec_drawbatch_eq batch s, runAll_drawpixels batch s⟩

/-- Settles O37: one clause is `pix_drawnAll`, the other the frame of the fold. -/
theorem drawbatchLastEntryWins : Obligations.DrawbatchLastEntryWins := by
  refine fun batch s => ⟨_, exec_drawbatch_eq batch s, fun x y h => ?_, fun a ha => read_drawnAll_of_ne ha s.fb⟩
  rw [fb_answerOk, State.fb_setFb, pix_drawnAll h]
  cases batch.reverse.find? (fun p => p.x == x && p.y == y) <;> rfl

/-! ### CLEAR (R166, R169) -/

theorem pix_fill_clearByte {g : Geometry} {x y : Coord} (h : inBounds g x y = true) (m : Memory) (v : Nibble) :
    pix g (Memory.fill m g.bufLen (clearByte v)) x y = some v := by
  rw [pix_of_inBounds h, Memory.read_fill, if_pos (coordIndex_lt h), laneOf_clearByte]

/-- Settles O38: the memory is one fill of FB with the byte of `v`. -/
theorem clearFillsTheBuffer : Obligations.ClearFillsTheBuffer := by
  refine fun v s => ⟨Memory.fill s.fb s.geom.bufLen (clearByte v), exec_clear_eq v s, fun a ha => ?_, fun a ha => ?_,
    fun x y h => pix_fill_clearByte h s.fb v⟩
  · rw [Memory.read_fill, if_pos ha, toNat_clearByte]
  · rw [Memory.read_fill, if_neg (Nat.not_lt.mpr ha)]

/-- A byte of FB is read off the two pixels that lie in it (R52). -/
theorem read_eq_of_pix_eq {g : Geometry} {m m' : Memory}
    (h : ∀ x y : Coord, inBounds g x y = true → pix g m x y = pix g m' x y) {i : Nat} (hi : i < g.bufLen) :
    Memory.read m i = Memory.read m' i := by
  have hlane : ∀ lane < 2, laneOf lane (Memory.read m i) = laneOf lane (Memory.read m' i) := by
    intro lane hlt
    obtain ⟨x, y, hin, rfl, rfl⟩ := exists_coord g hi lane hlt
    have hpix := h x y hin
    rw [pix_of_inBounds hin, pix_of_inBounds hin, Option.some.injEq] at hpix
    simpa only [laneOf, Nat.mod_mod] using hpix
  exact byte_eq_of_nibbles (hlane 0 Nat.two_pos) (hlane 1 Nat.one_lt_two)

/-- In canonical form FB is determined by its in-bounds pixels. -/
theorem fb_eq_of_pix_eq {g : Geometry} {m m' : Memory} (hm : Memory.fits m g.bufLen) (hm' : Memory.fits m' g.bufLen)
    (h : ∀ x y : Coord, inBounds g x y = true → pix g m x y = pix g m' x y) : m = m' :=
  Memory.eq_of_read_eq_below hm hm' fun _ hi => read_eq_of_pix_eq h hi

/-- A pixel that some entry of a batch of one value names reads that value. -/
theorem pix_drawnAll_of_all_eq {g : Geometry} {x y : Coord} {v : Nibble} {batch : List Pixel}
    (h : inBounds g x y = true) (hv : ∀ p ∈ batch, p.v = v) (hnamed : ∃ p ∈ batch, p.x = x ∧ p.y = y) (m : Memory) :
    pix g (drawnAll g m batch) x y = some v := by
  rw [pix_drawnAll h]
  cases hfind : batch.reverse.find? (fun p => p.x == x && p.y == y) with
  | some p =>
    have hp : p ∈ batch := List.mem_reverse.mp (List.mem_of_find?_eq_some hfind)
    simp [hv p hp]
  | none =>
    obtain ⟨p, hp, hx, hy⟩ := hnamed
    exact absurd (List.find?_eq_none.mp hfind p (List.mem_reverse.mpr hp)) (by simp [hx, hy])

/-- Settles O39: both framebuffers are in canonical form and read `v` at every in-bounds pixel. -/
theorem clearIsDrawingEveryPixel : Obligations.ClearIsDrawingEveryPixel := by
  intro v batch s hs hv hcovers
  have hfb : drawnAll s.geom s.fb batch = Memory.fill s.fb s.geom.bufLen (clearByte v) :=
    fb_eq_of_pix_eq (drawnAll_fits hs batch) (Memory.fill_fits hs _) fun x y h => by
      rw [pix_drawnAll_of_all_eq h hv (hcovers x y h), pix_fill_clearByte h]
  rw [exec_drawbatch_eq, exec_clear_eq, hfb]

end Sys2Proof.Machine

/-! PROOFS. The family of 43_panel_address_decoder.md: what `unpack` shows (R182), PANEL against its table (R183), the
ghost values against TRACE, the premise PANEL-MAP (R182, D12), and the bring-up chain (R186). -/

namespace Sys2Proof.Machine

/-! ### What an unpacked block shows (R182) -/

/-- Inside the box the table of `unpack` holds the nibble `unpackAt` reads. -/
theorem imageAt_unpack (g : Geometry) (d : List Byte) {x y : Nat} (hx : x < g.W) (hy : y < g.H) :
    imageAt (unpack g d) x y = some (unpackAt g d x y) := by
  simp [imageAt, unpack, hx, hy]

@[simp] theorem length_snapshot (g : Geometry) (m : Memory) : (snapshot g m).length = g.bufLen := by
  simp [snapshot]

/-- A byte of the snapshot is the byte of FB at that index (R54). -/
theorem getD_snapshot (g : Geometry) (m : Memory) {i : Nat} (hi : i < g.bufLen) :
    (snapshot g m).getD i 0 = Memory.read m i := by
  simp [snapshot, hi]

/-- Settles O42: the table entry is the lane of the snapshot's byte, which is FB's byte at the pixel's index. -/
theorem unpackShowsThePixels : Obligations.UnpackShowsThePixels := by
  intro g m x y h
  obtain ⟨-, hx, -, hy⟩ := (inBounds_iff g x y).mp h
  rw [imageAt_unpack g _ hx hy, pix_of_inBounds h, unpackAt, getD_snapshot g m (pixelIndex_lt g hx hy)]
  rfl

/-! ### PANEL after every operation (R183) -/

theorem panel_afterSending_of_ok {k : CommandKind} {bytes : List Byte} {s : State} (h : s.answerAt 0 = .ok) :
    (afterSending k bytes s).panel = panelAfterSend s.neutral k s.panel := by
  simp [afterSending, h, panelAfterSend]

theorem panel_afterSending_of_err {k : CommandKind} {bytes : List Byte} {s : State} (h : s.answerAt 0 = .err) :
    (afterSending k bytes s).panel = .unknown := by
  simp [afterSending, h]

/-- PANEL after an instruction that did not answer `BusWriteError`: the rows of R183's table. -/
def panelAfterOk (s : State) : Instr → Panel
  | .reset | .init => .unknown
  | .flush => panelAfterFlush s.geom s.phase (snapshot s.geom s.fb)
  | i =>
    match Instr.sends? i with
    | some c => panelAfterSend s.neutral c.kind s.panel
    | none => s.panel

theorem panelAfterOk_of_sends {i : Instr} {c : Command} (h : Instr.sends? i = some c) (s : State) :
    panelAfterOk s i = panelAfterSend s.neutral c.kind s.panel := by
  cases i with
  | reset | init | flush => simp [Instr.sends?] at h
  | _ => simp only [panelAfterOk, h]

/-- From `s` to `t` one answer was given: `BusWriteError` with PANEL withdrawn (R206), or another one with PANEL at
`P`. -/
def AnswersWithPanel (s t : State) (P : Panel) : Prop :=
  (t.answers = s.answers ++ [⟨.busWriteError, none⟩] ∧ t.panel = .unknown) ∨
  (t.answers ≠ s.answers ++ [⟨.busWriteError, none⟩] ∧ t.panel = P)

/-- An answer other than `BusWriteError`, as the second case of `AnswersWithPanel` asks for it. -/
theorem answersWithPanel_of_reply_ok {s t : State} {box : Option Box}
    (h : t.answers = s.answers ++ [⟨.ok, box⟩]) : AnswersWithPanel s t t.panel :=
  .inr ⟨by simp [h], rfl⟩

/-- An operation made of calls that starts with PANEL unknown ends with it unknown, when its `ok` ending leaves PANEL
and the answers alone. -/
theorem finish_runCalls_answersWithPanel (cs : List Call) (s : State) {onOk : State → State}
    (hanswers : ∀ u, (onOk u).answers = u.answers) (hpanel : ∀ u, (onOk u).panel = u.panel) :
    AnswersWithPanel s (finish (runCalls cs (s.setPanel .unknown)) onOk) .unknown := by
  rcases finish_runCalls_cases cs (s.setPanel .unknown) onOk with ⟨-, heq⟩ | ⟨done, c, rest, -, -, -, -, heq⟩
  · exact .inr ⟨by simp [heq, hanswers], by simp [heq, hpanel]⟩
  · exact .inl ⟨by simp [heq], by simp [heq]⟩

theorem afterSending_answersWithPanel (k : CommandKind) (bytes : List Byte) (s : State) :
    AnswersWithPanel s (afterSending k bytes s) (panelAfterSend s.neutral k s.panel) := by
  cases h : s.answerAt 0 with
  | ok => exact panel_afterSending_of_ok h ▸ answersWithPanel_of_reply_ok (afterSending_of_ok h).1
  | err => exact .inl ⟨(afterSending_of_err h).1, panel_afterSending_of_err h⟩

/-- BBOX and the drawing operations leave PANEL alone (R170, R183). -/
theorem panel_of_exec_bbox_or_draws {i : Instr} {s t : State} (hi : i = .bbox ∨ Instr.draws i = true)
    (h : exec i s = .next t) : t.panel = s.panel := by
  rcases hi with rfl | hd
  · rw [exec_bbox_eq] at h
    exact Host.Outcome.next.inj h ▸ rfl
  · rw [exec_draws hd] at h
    exact Host.Outcome.next.inj h ▸ rfl

theorem panelAfterOk_of_draws {i : Instr} (h : Instr.draws i = true) (s : State) : panelAfterOk s i = s.panel := by
  cases i with
  | drawpixel | clear | drawbatch => rfl
  | _ => simp [Instr.draws] at h

/-- R183's table for every instruction that answers: `panelAfterOk`, or `Unknown` after `BusWriteError`. -/
theorem exec_answersWithPanel {i : Instr} {s t : State} (h : exec i s = .next t) :
    AnswersWithPanel s t (panelAfterOk s i) := by
  rcases exec_cases h with ⟨c, hc, rfl⟩ | ⟨rfl, rfl⟩ | ⟨rfl, rfl⟩ | ⟨rfl, -, rfl⟩ | ⟨rfl, -, rfl⟩ | ⟨rfl, rfl⟩ |
    ⟨hd, rfl⟩
  · rw [panelAfterOk_of_sends hc]
    exact afterSending_answersWithPanel c.kind c.encode s
  · exact finish_runCalls_answersWithPanel resetCalls s (fun _ => rfl) (fun _ => rfl)
  · exact finish_runCalls_answersWithPanel (initCalls s.geom) s (fun _ => rfl) (fun _ => rfl)
  · exact answersWithPanel_of_reply_ok rfl
  · exact .inl ⟨rfl, rfl⟩
  · exact answersWithPanel_of_reply_ok rfl
  · rw [panelAfterOk_of_draws hd]
    exact answersWithPanel_of_reply_ok rfl

/-- Settles O52: every instruction ends by `panelAfterOk` or by `BusWriteError`; RESET and INIT leave `Unknown` either
way, and BBOX and drawing are a frame. -/
theorem panelFollowsItsTable : Obligations.PanelFollowsItsTable := by
  intro i s t h
  have hframe : i = .bbox ∨ Instr.draws i = true → t.panel = s.panel := fun hi => panel_of_exec_bbox_or_draws hi h
  rcases exec_answersWithPanel h with ⟨hanswers, hpanel⟩ | ⟨hanswers, hpanel⟩
  · exact ⟨fun _ => hpanel, fun _ => hpanel, fun hne => absurd hanswers hne, hframe⟩
  · refine ⟨fun herr => absurd herr hanswers, ?_, fun _ => ⟨?_, ?_⟩, hframe⟩
    · rintro (rfl | rfl) <;> exact hpanel
    · exact fun c hc => hpanel.trans (panelAfterOk_of_sends hc s)
    · rintro rfl; exact hpanel

/-! ### RESET, INIT and FLUSH with every call answered `ok` (R140, R141, R144) -/

/-- The state after RESET's six calls, before the host is answered (R140). -/
def State.afterReset (s : State) : State := ((s.setPanel .unknown).afterCalls resetEvents 3).setPhase .reset

/-- The state after INIT's 18 calls, before the host is answered (R141). -/
def State.afterInit (s : State) : State :=
  ((s.setPanel .unknown).afterCalls (initEvents s.geom) 18).setPhase (phaseAfterInit s.phase)

/-- The state after FLUSH's call, before the host is answered (R144). -/
def State.afterFlush (s : State) : State :=
  (s.afterCalls [.data (snapshot s.geom s.fb) .ok] 1).setPanel
    (panelAfterFlush s.geom s.phase (snapshot s.geom s.fb))

@[simp] theorem geom_afterReset (s : State) : s.afterReset.geom = s.geom := rfl
@[simp] theorem fb_afterReset (s : State) : s.afterReset.fb = s.fb := rfl
@[simp] theorem phase_afterReset (s : State) : s.afterReset.phase = .reset := rfl
@[simp] theorem res_afterReset (s : State) : s.afterReset.res = .high := rfl
@[simp] theorem trace_afterReset (s : State) : s.afterReset.trace = s.trace ++ resetEvents := rfl
@[simp] theorem answerAt_afterReset (s : State) (k : Nat) : s.afterReset.answerAt k = s.answerAt (3 + k) :=
  answerAt_afterCalls (s.setPanel .unknown) resetEvents 3 k

@[simp] theorem geom_afterInit (s : State) : s.afterInit.geom = s.geom := rfl
@[simp] theorem fb_afterInit (s : State) : s.afterInit.fb = s.fb := rfl
@[simp] theorem phase_afterInit (s : State) : s.afterInit.phase = phaseAfterInit s.phase := rfl
@[simp] theorem res_afterInit (s : State) : s.afterInit.res = s.res :=
  foldl_resAfterEvent_map_cmd s.res .ok (initBytes s.geom)
@[simp] theorem trace_afterInit (s : State) : s.afterInit.trace = s.trace ++ initEvents s.geom := rfl
@[simp] theorem answerAt_afterInit (s : State) (k : Nat) : s.afterInit.answerAt k = s.answerAt (18 + k) :=
  answerAt_afterCalls (s.setPanel .unknown) (initEvents s.geom) 18 k

@[simp] theorem phase_afterFlush (s : State) : s.afterFlush.phase = s.phase := rfl
@[simp] theorem res_afterFlush (s : State) : s.afterFlush.res = s.res := rfl
@[simp] theorem panel_afterFlush (s : State) :
    s.afterFlush.panel = panelAfterFlush s.geom s.phase (snapshot s.geom s.fb) := rfl
@[simp] theorem trace_afterFlush (s : State) :
    s.afterFlush.trace = s.trace ++ [.data (snapshot s.geom s.fb) .ok] := rfl

theorem exec_reset_of_ok {s : State} (h : ∀ k < 3, s.answerAt k = .ok) :
    exec .reset s = .next (answerOk s.afterReset) :=
  congrArg Host.Outcome.next (finish_runCalls_of_ok (cs := resetCalls) (s := s.setPanel .unknown) h _)

theorem exec_flush_of_ok {s : State} (h : s.answerAt 0 = .ok) : exec .flush s = .next (answerOk s.afterFlush) := by
  rw [exec_flush_eq, h]
  rfl

/-! ### How what TRACE shows grows with new events (R182, R184) -/

section Histories

variable {g : Geometry} {neutral : List CommandKind} {trace : List Event}

/-- A RESET just done is shown by its own events. -/
theorem resetDone_append_resetEvents (g : Geometry) (neutral : List CommandKind) (trace : List Event) :
    ResetDone g neutral (trace ++ resetEvents) :=
  ⟨trace, [], by simp, by simp⟩

theorem ResetDone.append (h : ResetDone g neutral trace) {events : List Event}
    (hevents : ∀ e ∈ events, neutralEvent neutral e ∨ blockEvent g e ∨ e ∈ initEvents g) :
    ResetDone g neutral (trace ++ events) := by
  obtain ⟨pre, post, rfl, hpost⟩ := h
  exact ⟨pre, post ++ events, by simp, List.forall_mem_append.mpr ⟨hpost, hevents⟩⟩

/-- An INIT behind a RESET makes the controller ready. -/
theorem ResetDone.append_initEvents (h : ResetDone g neutral trace) :
    ControllerReady g neutral (trace ++ initEvents g) :=
  ⟨trace, [], by simp, h, by simp⟩

theorem ControllerReady.append (h : ControllerReady g neutral trace) {events : List Event}
    (hevents : ∀ e ∈ events, neutralEvent neutral e ∨ blockEvent g e) :
    ControllerReady g neutral (trace ++ events) := by
  obtain ⟨pre, post, rfl, hreset, hpost⟩ := h
  exact ⟨pre, post ++ events, by simp, hreset, List.forall_mem_append.mpr ⟨hpost, hevents⟩⟩

/-- A ready controller's history still shows the RESET: INIT's own commands may stand behind it (entry 22). -/
theorem ControllerReady.resetDone (h : ControllerReady g neutral trace) : ResetDone g neutral trace := by
  obtain ⟨pre, post, rfl, hreset, hpost⟩ := h
  have hinit : ResetDone g neutral (pre ++ initEvents g) := hreset.append fun _ he => .inr (.inr he)
  exact hinit.append fun e he => (hpost e he).imp_right .inl

/-- A complete block sent to a ready controller is the last one shown. -/
theorem ControllerReady.append_block (h : ControllerReady g neutral trace) {d : List Byte} (hd : d.length = g.bufLen) :
    LastBlockShown g neutral (trace ++ [.data d .ok]) d :=
  ⟨trace, [], by simp, h, hd, by simp⟩

theorem LastBlockShown.append {d : List Byte} (h : LastBlockShown g neutral trace d) {events : List Event}
    (hevents : ∀ e ∈ events, neutralEvent neutral e) : LastBlockShown g neutral (trace ++ events) d := by
  obtain ⟨pre, post, rfl, hready, hd, hpost⟩ := h
  exact ⟨pre, post ++ events, by simp, hready, hd, List.forall_mem_append.mpr ⟨hpost, hevents⟩⟩

end Histories

/-! ### Every operation keeps the ghost values backed by TRACE (R26, R27, R183) -/

/-- Withdrawn claims need no history. -/
theorem ghostHistory_of_withdrawn {s : State} (hphase : s.phase = .uncommitted) (hpanel : s.panel = .unknown) :
    GhostHistory s where
  resetDone h := by simp [hphase] at h
  ready h := by simp [hphase] at h
  lineHigh h := absurd hphase h
  shown rows h := by simp [hpanel] at h

theorem GhostHistory.reply {s : State} (h : GhostHistory s) (r : Reply) : GhostHistory (s.reply r) :=
  ⟨h.resetDone, h.ready, h.lineHigh, h.shown⟩

theorem GhostHistory.setFb {s : State} (h : GhostHistory s) (m : Memory) : GhostHistory (s.setFb m) :=
  ⟨h.resetDone, h.ready, h.lineHigh, h.shown⟩

theorem GhostHistory.setRequests {s : State} (h : GhostHistory s) (rs : List (List Byte)) :
    GhostHistory (s.setRequests rs) :=
  ⟨h.resetDone, h.ready, h.lineHigh, h.shown⟩

/-- A delivered neutral command keeps every claim (R184). -/
theorem GhostHistory.afterCalls_neutral {s : State} (h : GhostHistory s) {c : Command} (hc : c.kind ∈ s.neutral)
    (n : Nat) : GhostHistory (s.afterCalls [.cmd c.encode .ok] n) := by
  have hevents : ∀ e ∈ [Event.cmd c.encode .ok], neutralEvent s.neutral e :=
    List.forall_mem_singleton.mpr ⟨c, rfl, hc⟩
  refine ⟨fun hp => ?_, fun hp => ?_, h.lineHigh, fun rows hP => ?_⟩
  · exact (h.resetDone hp).append fun e he => .inl (hevents e he)
  · exact (h.ready hp).append fun e he => .inl (hevents e he)
  · obtain ⟨hphase, d, hshown, hrows⟩ := h.shown rows hP
    exact ⟨hphase, d, hshown.append hevents, hrows⟩

/-- A delivered neutral command changes no ghost value but TRACE (R26, R183). -/
theorem afterSending_of_neutral {k : CommandKind} {bytes : List Byte} {s : State} (h : s.answerAt 0 = .ok)
    (hk : k ∈ s.neutral) : afterSending k bytes s = answerOk (s.afterCalls [.cmd bytes .ok] 1) := by
  apply State.ext_fields <;> simp [afterSending, h, hk, resAfterEvent]

theorem GhostHistory.afterSending {s : State} (h : GhostHistory s) (c : Command) :
    GhostHistory (afterSending c.kind c.encode s) := by
  cases hr : s.answerAt 0 with
  | err => exact ghostHistory_of_withdrawn (afterSending_of_err hr).2 (panel_afterSending_of_err hr)
  | ok =>
    by_cases hc : c.kind ∈ s.neutral
    · rw [afterSending_of_neutral hr hc]
      exact (h.afterCalls_neutral hc 1).reply _
    · refine ghostHistory_of_withdrawn ?_ ?_
      · rw [(afterSending_of_ok hr).2, phaseAfterSend, if_neg hc]
      · rw [panel_afterSending_of_ok hr, panelAfterSend, if_neg hc]

/-- An operation made of calls need only be looked at where every call is answered `ok`: an error withdraws every
claim (R206). -/
theorem finish_runCalls_ghostHistory {cs : List Call} {s : State} {onOk : State → State}
    (h : GhostHistory (onOk (s.afterCalls (cs.map (Call.event .ok)) (fallibleCount cs)))) :
    GhostHistory (finish (runCalls cs s) onOk) := by
  rcases finish_runCalls_cases cs s onOk with ⟨-, heq⟩ | ⟨done, c, rest, -, -, -, -, heq⟩ <;> rw [heq]
  · exact h.reply _
  · exact ghostHistory_of_withdrawn rfl rfl

/-- After RESET's events phase `Reset` is backed, from any state. -/
theorem ghostHistory_afterReset (s : State) : GhostHistory s.afterReset where
  resetDone _ := resetDone_append_resetEvents s.geom s.neutral s.trace
  ready := nofun
  lineHigh _ := rfl
  shown := nofun

/-- After INIT's events the phase of its table is backed: an INIT in `Reset` or in `Initialized` has its RESET. -/
theorem GhostHistory.afterInit {s : State} (h : GhostHistory s) : GhostHistory s.afterInit := by
  have hinitialized (hphase : s.phase ≠ .uncommitted) (hafter : phaseAfterInit s.phase = .initialized)
      (hreset : ResetDone s.geom s.neutral s.trace) : GhostHistory s.afterInit :=
    { resetDone := fun hp => by simp [hafter] at hp
      ready := fun _ => hreset.append_initEvents
      lineHigh := fun _ => (res_afterInit s).trans (h.lineHigh hphase)
      shown := nofun }
  cases hphase : s.phase with
  | uncommitted => exact ghostHistory_of_withdrawn (by simp [hphase, phaseAfterInit]) rfl
  | reset => exact hinitialized (by simp [hphase]) (by simp [hphase, phaseAfterInit]) (h.resetDone hphase)
  | initialized =>
    exact hinitialized (by simp [hphase]) (by simp [hphase, phaseAfterInit]) (h.ready hphase).resetDone

theorem panelAfterFlush_eq_image_iff {g : Geometry} {p : Phase} {d : List Byte} {rows : List (List Nibble)} :
    panelAfterFlush g p d = .image rows ↔ p = .initialized ∧ rows = unpack g d := by
  by_cases h : p = .initialized <;> simp [panelAfterFlush, h, eq_comm]

/-- A complete block keeps the claims on `phase`, and an image is claimed only of that block (R183). -/
theorem GhostHistory.afterFlush {s : State} (h : GhostHistory s) : GhostHistory s.afterFlush := by
  have hlength : (snapshot s.geom s.fb).length = s.geom.bufLen := length_snapshot s.geom s.fb
  have hevents : ∀ e ∈ [Event.data (snapshot s.geom s.fb) .ok], blockEvent s.geom e :=
    List.forall_mem_singleton.mpr ⟨_, rfl, hlength⟩
  refine ⟨fun hp => ?_, fun hp => ?_, h.lineHigh, fun rows hP => ?_⟩
  · exact (h.resetDone hp).append fun e he => .inr (.inl (hevents e he))
  · exact (h.ready hp).append fun e he => .inr (hevents e he)
  · obtain ⟨hphase, hrows⟩ := panelAfterFlush_eq_image_iff.mp hP
    exact ⟨hphase, _, (h.ready hphase).append_block hlength, hrows⟩

/-- Every instruction keeps the ghost values backed by TRACE. -/
theorem exec_keeps_ghostHistory {i : Instr} {s t : State} (hs : GhostHistory s) (h : exec i s = .next t) :
    GhostHistory t := by
  rcases exec_cases h with ⟨c, -, rfl⟩ | ⟨-, rfl⟩ | ⟨-, rfl⟩ | ⟨-, -, rfl⟩ | ⟨-, -, rfl⟩ | ⟨-, rfl⟩ | ⟨-, rfl⟩
  · exact hs.afterSending c
  · exact finish_runCalls_ghostHistory (ghostHistory_afterReset s)
  · exact finish_runCalls_ghostHistory hs.afterInit
  · exact hs.afterFlush.reply _
  · exact ghostHistory_of_withdrawn rfl rfl
  · exact hs.reply _
  · exact (hs.setFb _).reply _

/-- Settles O55: a step either does nothing or runs one instruction, and each kind of instruction keeps every claim
backed or withdraws it. -/
theorem stepKeepsGhostHistory : Obligations.StepKeepsGhostHistory := by
  intro s t hs h
  rcases step_cases h with ⟨-, rfl⟩ | ⟨record, rest, i, left, -, -, hexec⟩
  · exact hs
  · exact exec_keeps_ghostHistory (hs.setRequests rest) hexec

/-- Settles O58: the image is the unpacked last block, and PANEL-MAP says that memory holds that block. -/
theorem panelMapMakesTheImageTrue : Obligations.PanelMapMakesTheImageTrue := by
  intro s memory rows hs hmap hpanel x y hx hy
  obtain ⟨-, d, hshown, rfl⟩ := hs.shown rows hpanel
  rw [imageAt_unpack s.geom d hx hy, hmap s.trace d hshown x y hx hy]

/-! ### The bring-up chain (R186) -/

theorem runAll_cons_of_next {i : Instr} {s t : State} (h : exec i s = .next t) (rest : List Instr) :
    runAll (i :: rest) s = runAll rest t := by
  rw [runAll, h, onNext]

theorem runAll_append (is js : List Instr) (s : State) :
    runAll (is ++ js) s = onNext (runAll is s) (runAll js) := by
  induction is generalizing s with
  | nil => rfl
  | cons i rest ih =>
    rw [List.cons_append, runAll, runAll]
    cases exec i s with
    | next t => exact ih t
    | fault r => rfl
    | refused r => rfl

/-- FB after drawing instructions, in order. -/
def fbAfterAll (g : Geometry) (m : Memory) (is : List Instr) : Memory := is.foldl (fbAfter g) m

/-- A state after drawing instructions: FB drawn on, and one answer for each. -/
def State.drawn (s : State) (is : List Instr) : State :=
  { s with
    fb := fbAfterAll s.geom s.fb is
    answers := s.answers ++ List.replicate is.length ⟨.ok, none⟩ }

@[simp] theorem geom_drawn (s : State) (is : List Instr) : (s.drawn is).geom = s.geom := rfl
@[simp] theorem fb_drawn (s : State) (is : List Instr) : (s.drawn is).fb = fbAfterAll s.geom s.fb is := rfl
@[simp] theorem phase_drawn (s : State) (is : List Instr) : (s.drawn is).phase = s.phase := rfl
@[simp] theorem res_drawn (s : State) (is : List Instr) : (s.drawn is).res = s.res := rfl
@[simp] theorem panel_drawn (s : State) (is : List Instr) : (s.drawn is).panel = s.panel := rfl
@[simp] theorem trace_drawn (s : State) (is : List Instr) : (s.drawn is).trace = s.trace := rfl
@[simp] theorem answerAt_drawn (s : State) (is : List Instr) (k : Nat) : (s.drawn is).answerAt k = s.answerAt k := rfl

/-- Drawing instructions all complete and do nothing else. -/
theorem runAll_draws {is : List Instr} (h : ∀ i ∈ is, Instr.draws i = true) (s : State) :
    runAll is s = .next (s.drawn is) := by
  induction is generalizing s with
  | nil => simp [runAll, State.drawn, fbAfterAll]
  | cons i rest ih =>
    obtain ⟨hi, hrest⟩ := List.forall_mem_cons.mp h
    rw [runAll, exec_draws hi, onNext, ih hrest, State.drawn, answers_answerOk, List.append_assoc,
      List.singleton_append, ← List.replicate_succ]
    rfl

/-- The state after RESET and INIT with every call answered `ok`. -/
def State.broughtUp (s : State) : State := answerOk (answerOk s.afterReset).afterInit

@[simp] theorem geom_broughtUp (s : State) : s.broughtUp.geom = s.geom := by simp [State.broughtUp]
@[simp] theorem fb_broughtUp (s : State) : s.broughtUp.fb = s.fb := by simp [State.broughtUp]
@[simp] theorem phase_broughtUp (s : State) : s.broughtUp.phase = .initialized := by
  simp [State.broughtUp, phaseAfterInit]
@[simp] theorem res_broughtUp (s : State) : s.broughtUp.res = .high := by simp [State.broughtUp]
@[simp] theorem trace_broughtUp (s : State) : s.broughtUp.trace = s.trace ++ resetEvents ++ initEvents s.geom := by
  simp [State.broughtUp]
@[simp] theorem answerAt_broughtUp (s : State) (k : Nat) : s.broughtUp.answerAt k = s.answerAt (21 + k) := by
  rw [State.broughtUp, answerAt_answerOk, answerAt_afterInit, answerAt_answerOk, answerAt_afterReset, ← Nat.add_assoc]

theorem runAll_reset_init_of_ok {s : State} (h : ∀ k < 21, s.answerAt k = .ok) :
    runAll [.reset, .init] s = .next s.broughtUp := by
  have hcoming : ∀ k < 18, (answerOk s.afterReset).answerAt k = .ok := fun k hk => by
    rw [answerAt_answerOk, answerAt_afterReset]
    exact h (3 + k) (by omega)
  rw [runAll_cons_of_next (exec_reset_of_ok fun k hk => h k (by omega)), runAll_cons_of_next (exec_init_of_ok hcoming)]
  rfl

/-- Settles O59: RESET and INIT leave phase `Initialized` and FB alone, drawing changes FB only, and the FLUSH of phase
`Initialized` unpacks the FB drawn, whose image is its pixels. -/
theorem bringUpShowsTheBuffer : Obligations.BringUpShowsTheBuffer := by
  intro s before after hbefore hafter hok
  have hup : runAll [.reset, .init] s = .next s.broughtUp :=
    runAll_reset_init_of_ok fun k hk => hok k (Nat.lt_succ_of_lt hk)
  have hanswer : (s.broughtUp.drawn before).answerAt 0 = .ok := by
    rw [answerAt_drawn, answerAt_broughtUp]
    exact hok 21 (by omega)
  have hblock : snapshot (s.broughtUp.drawn before).geom (s.broughtUp.drawn before).fb =
      snapshot s.geom (s.drawn before).fb := by simp
  have hflush : runAll [.flush] (s.broughtUp.drawn before) = .next (answerOk (s.broughtUp.drawn before).afterFlush) :=
    runAll_cons_of_next (exec_flush_of_ok hanswer) []
  refine ⟨(answerOk (s.broughtUp.drawn before).afterFlush).drawn after, s.drawn before, ?run,
    runAll_draws hbefore s, ?phase, ?res, ?trace, unpack s.geom (snapshot s.geom (s.drawn before).fb), ?panel,
    unpackShowsThePixels s.geom (s.drawn before).fb⟩
  case run =>
    simp only [runAll_append, hup, runAll_draws hbefore, hflush, runAll_draws hafter, onNext]
  case phase => simp
  case res => simp
  case trace => rw [trace_drawn, trace_answerOk, trace_afterFlush, trace_drawn, trace_broughtUp, hblock]
  case panel =>
    rw [panel_drawn, panel_answerOk, panel_afterFlush, hblock]
    exact panelAfterFlush_eq_image_iff.mpr ⟨phase_broughtUp s, by rw [geom_drawn, geom_broughtUp]⟩

end Sys2Proof.Machine

/-! PROOFS. The exceptions family of 60_exceptions.md: which operations raise the bus write error and at which call
(R201), and the one failing call of an operation, its last (R205). -/

namespace Sys2Proof.Machine

/-! ### How an operation ends: with no failed call, or at its one failed call (R205) -/

theorem answer?_event_ok_ne_err (c : Call) : (c.event .ok).answer? ≠ some .err := by
  cases c <;> simp [Call.event, Event.answer?]

theorem answer?_event_of_fallible {c : Call} (hc : c.fallible = true) (r : Answer) :
    (c.event r).answer? = some r := by
  cases c with
  | delay n => simp [Call.fallible] at hc
  | _ => rfl

/-- From `s` to `t` no call failed, and the host was answered `ok`. -/
def EndsWithoutError (s t : State) : Prop :=
  ∃ events box, t.trace = s.trace ++ events ∧ t.answers = s.answers ++ [⟨.ok, box⟩] ∧
    ∀ e ∈ events, e.answer? ≠ some .err

/-- From `s` to `t` the calls were good up to the last one, which failed, and the host was answered `BusWriteError`. -/
def EndsAtFailedCall (s t : State) : Prop :=
  ∃ made e, t.trace = s.trace ++ (made ++ [e]) ∧ t.answers = s.answers ++ [⟨.busWriteError, none⟩] ∧
    e.answer? = some .err ∧ ∀ d ∈ made, d.answer? ≠ some .err

theorem EndsWithoutError.answers_ne {s t : State} (h : EndsWithoutError s t) :
    t.answers ≠ s.answers ++ [⟨.busWriteError, none⟩] := by
  obtain ⟨events, box, -, hanswers, -⟩ := h
  simp [hanswers]

/-- An operation made of calls ends one way or the other, when its `ok` ending leaves TRACE and the answers alone. -/
theorem finish_runCalls_ends (cs : List Call) (s : State) {onOk : State → State}
    (htrace : ∀ u, (onOk u).trace = u.trace) (hanswers : ∀ u, (onOk u).answers = u.answers) :
    EndsWithoutError s (finish (runCalls cs s) onOk) ∨ EndsAtFailedCall s (finish (runCalls cs s) onOk) := by
  rcases finish_runCalls_cases cs s onOk with ⟨-, heq⟩ | ⟨done, c, rest, -, hc, -, -, heq⟩ <;> rw [heq]
  · refine .inl ⟨cs.map (Call.event .ok), none, by simp [htrace], by simp [hanswers], ?_⟩
    exact List.forall_mem_map.2 fun d _ => answer?_event_ok_ne_err d
  · refine .inr ⟨done.map (Call.event .ok), c.event .err, rfl, rfl, answer?_event_of_fallible hc .err, ?_⟩
    exact List.forall_mem_map.2 fun d _ => answer?_event_ok_ne_err d

theorem afterSending_ends (k : CommandKind) (bytes : List Byte) (s : State) :
    EndsWithoutError s (afterSending k bytes s) ∨ EndsAtFailedCall s (afterSending k bytes s) := by
  have htrace := trace_afterSending k bytes s
  cases h : s.answerAt 0 <;> rw [h] at htrace
  · exact .inl ⟨_, none, htrace, (afterSending_of_ok h).1, by simp [Event.answer?]⟩
  · exact .inr ⟨[], _, htrace, (afterSending_of_err h).1, rfl, by simp⟩

/-- An operation that emits no event and answers `ok`. -/
theorem endsWithoutError_of_no_event {s t : State} {box : Option Box} (htrace : t.trace = s.trace)
    (hanswers : t.answers = s.answers ++ [⟨.ok, box⟩]) : EndsWithoutError s t :=
  ⟨[], box, by simp [htrace], hanswers, by simp⟩

/-- Every instruction that completes ends without a failed call or at its one failed call (R205). -/
theorem exec_ends {i : Instr} {s t : State} (h : exec i s = .next t) : EndsWithoutError s t ∨ EndsAtFailedCall s t := by
  rcases exec_cases h with ⟨c, -, rfl⟩ | ⟨-, rfl⟩ | ⟨-, rfl⟩ | ⟨-, -, rfl⟩ | ⟨-, -, rfl⟩ | ⟨-, rfl⟩ | ⟨-, rfl⟩
  · exact afterSending_ends c.kind c.encode s
  · exact finish_runCalls_ends resetCalls (s.setPanel .unknown) (fun _ => rfl) (fun _ => rfl)
  · exact finish_runCalls_ends (initCalls s.geom) (s.setPanel .unknown) (fun _ => rfl) (fun _ => rfl)
  · exact .inl ⟨[.data _ .ok], none, rfl, rfl, by simp [Event.answer?]⟩
  · exact .inr ⟨[], .data _ .err, rfl, rfl, rfl, by simp⟩
  · exact .inl (endsWithoutError_of_no_event rfl rfl)
  · exact .inl (endsWithoutError_of_no_event rfl rfl)

/-- Settles O45: an operation without a failed call has no last event that carries `err`; one with a failed call has it
last, behind good ones. -/
theorem earliestErrorIsReported : Obligations.EarliestErrorIsReported := by
  intro i s t h
  rcases exec_ends h with hok | ⟨made, e, htrace, hanswers, herr, hmade⟩
  · have hne := hok.answers_ne
    obtain ⟨events, box, htrace, -, hevents⟩ := hok
    refine ⟨events, htrace, fun e he => hevents e (List.mem_of_mem_dropLast he), fun herr => absurd herr hne, ?_⟩
    rintro ⟨e, hlast, herr⟩
    exact absurd herr (hevents e (List.mem_of_getLast? hlast))
  · refine ⟨made ++ [e], htrace, ?_, fun _ => ⟨e, List.getLast?_concat, herr⟩, fun _ => hanswers⟩
    rwa [List.dropLast_concat]

/-! ### Which of the coming answers raises the error (R201) -/

/-- From `s` to `t`, an operation of `n` fallible calls: it answers `BusWriteError` exactly when one of its answers is
`err`, and it stops at the first such call. -/
def RaisesAtFirstError (n : Nat) (s t : State) : Prop :=
  (t.answers = s.answers ++ [⟨.busWriteError, none⟩] ↔ ∃ k < n, s.answerAt k = .err) ∧
  ∀ k < n, (∀ j < k, s.answerAt j = .ok) → s.answerAt k = .err → t.callNo = s.callNo + (k + 1)

/-- The first `err` among the coming answers has one position. -/
theorem first_err_unique {s : State} {j k : Nat} (hj : ∀ i < j, s.answerAt i = .ok) (hjerr : s.answerAt j = .err)
    (hk : ∀ i < k, s.answerAt i = .ok) (hkerr : s.answerAt k = .err) : j = k := by
  rcases Nat.lt_trichotomy j k with hlt | heq | hgt
  · simp [hk j hlt] at hjerr
  · exact heq
  · simp [hj k hgt] at hkerr

theorem finish_runCalls_raisesAtFirstError (cs : List Call) (s : State) {onOk : State → State}
    (hanswers : ∀ u, (onOk u).answers = u.answers) :
    RaisesAtFirstError (fallibleCount cs) s (finish (runCalls cs s) onOk) := by
  rcases finish_runCalls_cases cs s onOk with ⟨hok, heq⟩ | ⟨done, c, rest, rfl, hc, hok, herr, heq⟩ <;> rw [heq]
  · have hnone : ∀ k < fallibleCount cs, s.answerAt k ≠ .err := fun k hk => by simp [hok k hk]
    exact ⟨⟨fun h => by simp [hanswers] at h, fun ⟨k, hk, h⟩ => absurd h (hnone k hk)⟩,
      fun k hk _ h => absurd h (hnone k hk)⟩
  · have hlt : fallibleCount done < fallibleCount (done ++ c :: rest) := by
      simp [fallibleCount, List.filter_append, hc]
    refine ⟨⟨fun _ => ⟨_, hlt, herr⟩, fun _ => rfl⟩, fun k _ hk hkerr => ?_⟩
    rw [callNo_raiseBusWriteError, callNo_afterCalls, first_err_unique hok herr hk hkerr]

/-- RESET's three line calls. -/
theorem exec_reset_raises (s : State) : ∃ t, exec .reset s = .next t ∧ RaisesAtFirstError 3 s t :=
  ⟨_, exec_reset_eq s, finish_runCalls_raisesAtFirstError resetCalls (s.setPanel .unknown) fun _ => rfl⟩

/-- INIT's 18 commands. -/
theorem exec_init_raises (s : State) : ∃ t, exec .init s = .next t ∧ RaisesAtFirstError 18 s t :=
  ⟨_, exec_init_eq s, finish_runCalls_raisesAtFirstError (initCalls s.geom) (s.setPanel .unknown) fun _ => rfl⟩

/-- Sending a command makes one call. -/
theorem exec_sends_raises {i : Instr} {c : Command} (h : Instr.sends? i = some c) (s : State) :
    ∃ t, exec i s = .next t ∧ (t.answers = s.answers ++ [⟨.busWriteError, none⟩] ↔ s.answerAt 0 = .err) :=
  ⟨_, exec_sends h s, by rw [answers_afterSending_eq_iff, replyOf_eq_busWriteError_iff]⟩

/-- FLUSH makes one call. -/
theorem exec_flush_raises (s : State) :
    ∃ t, exec .flush s = .next t ∧ (t.answers = s.answers ++ [⟨.busWriteError, none⟩] ↔ s.answerAt 0 = .err) := by
  refine ⟨_, exec_flush_eq s, ?_⟩
  cases h : s.answerAt 0 <;> simp

/-- The drawing operations and BBOX make no call (R170). -/
theorem exec_draws_or_bbox_never_raises {i : Instr} (hi : Instr.draws i = true ∨ i = .bbox) (s : State) :
    ∃ t, exec i s = .next t ∧ t.answers ≠ s.answers ++ [⟨.busWriteError, none⟩] := by
  rcases hi with hd | rfl
  · exact ⟨_, exec_draws hd s, by simp⟩
  · exact ⟨_, exec_bbox_eq s, by simp⟩

/-! ### Every fallible call can fail in every state (R12, R201) -/

/-- `k` answers `ok` and then `err`. -/
def failingAt (k : Nat) : List Answer := List.replicate k .ok ++ [.err]

theorem answerAt_failingAt_of_lt (s : State) {j k : Nat} (h : j < k) :
    State.answerAt { s with oracle := failingAt k } j = .ok := by
  simp [State.answerAt, failingAt, List.getElem?_append_left, h]

theorem answerAt_failingAt_self (s : State) (k : Nat) :
    State.answerAt { s with oracle := failingAt k } k = .err := by
  simp [State.answerAt, failingAt]

/-- An operation of `n` fallible calls fails at call `k` when the coming answers are `failingAt k`. -/
theorem exists_oracle_raises_at {i : Instr} {n : Nat}
    (h : ∀ s, ∃ t, exec i s = .next t ∧ RaisesAtFirstError n s t) (s : State) {k : Nat} (hk : k < n) :
    ∃ oracle t, exec i { s with oracle := oracle } = .next t ∧
      t.answers = s.answers ++ [⟨.busWriteError, none⟩] ∧ t.callNo = s.callNo + (k + 1) := by
  obtain ⟨t, hexec, hraises, hstops⟩ := h { s with oracle := failingAt k }
  exact ⟨failingAt k, t, hexec, hraises.2 ⟨k, hk, answerAt_failingAt_self s k⟩,
    hstops k hk (fun j hj => answerAt_failingAt_of_lt s hj) (answerAt_failingAt_self s k)⟩

/-- An operation of one call fails when the coming answer is `err`. -/
theorem exists_oracle_raises {i : Instr}
    (h : ∀ s, ∃ t, exec i s = .next t ∧ (t.answers = s.answers ++ [⟨.busWriteError, none⟩] ↔ s.answerAt 0 = .err))
    (s : State) :
    ∃ oracle t, exec i { s with oracle := oracle } = .next t ∧ t.answers = s.answers ++ [⟨.busWriteError, none⟩] := by
  obtain ⟨t, hexec, hraises⟩ := h { s with oracle := failingAt 0 }
  exact ⟨failingAt 0, t, hexec, hraises.2 (answerAt_failingAt_self s 0)⟩

/-- Settles O46: each operation by its own calls, and for each of its calls the answers with which that one fails. -/
theorem whichOperationsRaise : Obligations.WhichOperationsRaise :=
  ⟨exec_reset_raises, exec_init_raises, fun _ _ s h => exec_sends_raises h s, exec_flush_raises,
    fun _ s h => exec_draws_or_bbox_never_raises h s, fun _ _ => rfl,
    fun s _ hk => exists_oracle_raises_at exec_reset_raises s hk,
    fun s _ hk => exists_oracle_raises_at exec_init_raises s hk,
    fun _ _ s h => exists_oracle_raises (exec_sends_raises h) s, exists_oracle_raises exec_flush_raises⟩

end Sys2Proof.Machine

/-! PROOFS. The family of 70_reset_and_hazards.md: the state construction leaves (R36, R230). -/

namespace Sys2Proof.Machine

/-! ### The buffer construction leaves (R36, R230) -/

@[simp] theorem read_fb_construct (g : Geometry) (neutral : List CommandKind) (i : Nat) :
    Memory.read (State.construct g neutral).fb i = 0#8 := Memory.read_nil i

theorem pix_fb_construct {g : Geometry} {x y : Coord} (h : inBounds g x y = true) (neutral : List CommandKind) :
    pix g (State.construct g neutral).fb x y = some 0#4 := by
  rw [pix_of_inBounds h, read_fb_construct, laneOf_zero]

/-- Settles O9: every byte of the constructed buffer reads 0, so both its pixels do; the ghost values are those
`State.construct` writes. -/
theorem constructionState : Obligations.ConstructionState := fun g neutral =>
  ⟨fun i _ => read_fb_construct g neutral i, length_snapshot g _, fun _ _ h => pix_fb_construct h neutral,
    rfl, rfl, rfl, rfl⟩

end Sys2Proof.Machine

/-! PROOFS. The encodings of 30_encoding.md and 40_command_encoder.md: decoder and encoder are inverse to each other,
for commands (R130) and for request records (entry 4), and the opcodes are a closed set (R84, R85). -/

namespace Sys2Proof.Machine

/-! ### Commands: the encoder and the decoder of R130 -/

/-- Settles O5: the opcode and the operands of each variant. -/
theorem commandByteTable : Obligations.CommandByteTable :=
  fun _ _ => ⟨rfl, rfl, rfl, rfl, rfl, rfl, rfl, rfl, rfl, rfl, rfl, rfl, rfl, rfl, rfl, rfl, rfl, rfl⟩

theorem ofOpcode_eq_some_iff (b : Byte) (k : CommandKind) : CommandKind.ofOpcode b = some k ↔ b = k.opcode :=
  ⟨fun h => (opcode_of_ofOpcode h).symm, fun h => h ▸ ofOpcode_opcode k⟩

/-- Settles O8: an opcode byte names its own variant, and of the 256 byte values 238 are none of the 18 opcodes. -/
theorem opcodesAreAClosedSet : Obligations.OpcodesAreAClosedSet := ⟨ofOpcode_eq_some_iff, by decide +kernel⟩

/-- Every command is built from its variant and two operand bytes (R91). -/
theorem exists_build (c : Command) : ∃ a b, c = c.kind.build a b := by
  cases c with
  | columnAddress a b | rowAddress a b => exact ⟨a, b, rfl⟩
  | displayOff | displayOn | normalDisplay => exact ⟨0, 0, rfl⟩
  | _ a => exact ⟨a, 0, rfl⟩

/-- The decoder recovers the command, so no two commands share their bytes. -/
theorem encode_injective : Function.Injective Command.encode := by
  intro c c' h
  have hc := commandDecode_encode_append c []
  rw [h, commandDecode_encode_append] at hc
  exact (Prod.ext_iff.mp (Except.ok.inj hc)).1.symm

/-- What the operand bytes decode to is a command of that variant, encoded as the opcode and these bytes. -/
theorem cons_eq_encode_of_takeOperands {k : CommandKind} {rest left : List Byte} {c : Command}
    (h : takeOperands k k.format rest = .ok (c, left)) : k.opcode :: rest = c.encode ++ left := by
  cases hf : k.format <;> rw [hf] at h
  case c0 =>
    obtain ⟨rfl, rfl⟩ : k.build 0 0 = c ∧ rest = left := by simpa [takeOperands] using h
    rw [encode_build, hf]; rfl
  case c1 =>
    obtain _ | ⟨a, rest⟩ := rest
    · cases h
    obtain ⟨rfl, rfl⟩ : k.build a 0 = c ∧ rest = left := by simpa [takeOperands] using h
    rw [encode_build, hf]; rfl
  case c2 =>
    obtain _ | ⟨a, _ | ⟨b, rest⟩⟩ := rest
    · cases h
    · cases h
    obtain ⟨rfl, rfl⟩ : k.build a b = c ∧ rest = left := by simpa [takeOperands] using h
    rw [encode_build, hf]; rfl

theorem eq_encode_of_commandDecode {bytes rest : List Byte} {c : Command}
    (h : Command.decode bytes = .ok (c, rest)) : bytes = c.encode ++ rest := by
  obtain _ | ⟨op, operands⟩ := bytes
  · cases h
  cases hop : CommandKind.ofOpcode op with
  | none => simp [Command.decode, hop] at h
  | some k =>
    simp only [Command.decode, hop] at h
    rw [← opcode_of_ofOpcode hop, cons_eq_encode_of_takeOperands h]

/-- Settles O6: the length is that of the format, the first byte is the opcode, and the decoder is the inverse. -/
theorem commandDecoderRecovers : Obligations.CommandDecoderRecovers := by
  refine ⟨fun c rest => ⟨?_, ?_, ⟨c.kind, rfl⟩, commandDecode_encode_append c rest⟩, fun _ _ h => encode_injective h,
    fun _ _ _ h => eq_encode_of_commandDecode h⟩
  · exact Nat.succ_le_of_lt (List.length_pos_of_ne_nil (encode_ne_nil c))
  · obtain ⟨a, b, hc⟩ := exists_build c
    rw [hc, encode_build]
    cases c.kind.format <;> simp [bytesOfFormat]

/-! ### How many encodings there are (R130) -/

/-- The variants as a finite type, from the source's table. -/
@[reducible] def commandKindFintype : Fintype CommandKind :=
  ⟨CommandKind.all.toFinset, fun k => by cases k <;> decide⟩

/-- How many byte lists a format gives one opcode: its operand bytes in every combination. -/
def encodingsOfFormat : Format → Nat
  | .c0 => 1
  | .c1 => 256
  | .c2 => 65536

theorem card_byte : Nat.card Byte = 256 := by
  rw [Nat.card_eq_fintype_card, ← FinEnum.card_eq_fintypeCard]
  exact FinEnum.card_bitVec 8

theorem ncard_range_bytesOfFormat (f : Format) (op : Byte) :
    (Set.range fun p : Byte × Byte => bytesOfFormat f op p.1 p.2).ncard = encodingsOfFormat f := by
  cases f with
  | c0 =>
    have hrange : (Set.range fun _ : Byte × Byte => [op]) = {[op]} := Set.range_const
    exact hrange ▸ Set.ncard_singleton [op]
  | c1 =>
    have hrange : (Set.range fun p : Byte × Byte => [op, p.1]) = Set.range fun a => [op, a] :=
      Prod.fst_surjective.range_comp fun a => [op, a]
    have hinj : Function.Injective fun a : Byte => [op, a] := fun a b h => by simpa using h
    show (Set.range fun p : Byte × Byte => [op, p.1]).ncard = 256
    rw [hrange, Set.ncard_range_of_injective hinj, card_byte]
  | c2 =>
    have hinj : Function.Injective fun p : Byte × Byte => [op, p.1, p.2] := fun p q h => by
      simpa [Prod.ext_iff] using h
    show (Set.range fun p : Byte × Byte => [op, p.1, p.2]).ncard = 65536
    rw [Set.ncard_range_of_injective hinj, Nat.card_prod, card_byte]

/-- The encodings of one variant's commands are the byte lists of its format. -/
theorem encode_image_kind (k : CommandKind) :
    Command.encode '' {c | c.kind = k} =
      Set.range fun p : Byte × Byte => bytesOfFormat k.format k.opcode p.1 p.2 := by
  ext bytes
  constructor
  · rintro ⟨c, rfl, rfl⟩
    obtain ⟨a, b, hc⟩ := exists_build c
    exact ⟨(a, b), (encode_build c.kind a b).symm.trans (congrArg Command.encode hc.symm)⟩
  · rintro ⟨p, rfl⟩
    exact ⟨k.build p.1 p.2, kind_build k p.1 p.2, encode_build k p.1 p.2⟩

theorem finite_command : Finite Command := by
  have := commandKindFintype
  refine Finite.of_surjective (fun p : CommandKind × Byte × Byte => p.1.build p.2.1 p.2.2) fun c => ?_
  obtain ⟨a, b, hc⟩ := exists_build c
  exact ⟨(c.kind, a, b), hc.symm⟩

/-- Settles O7: the commands are counted variant by variant, each by the byte lists of its format. -/
theorem commandEncodingsCount : Obligations.CommandEncodingsCount := by
  let _ := commandKindFintype
  have := finite_command
  have hkind (k : CommandKind) : Nat.card {c : Command // c.kind = k} = encodingsOfFormat k.format := by
    rw [← ncard_range_bytesOfFormat k.format k.opcode, ← encode_image_kind,
      Set.ncard_image_of_injective _ encode_injective]
    rfl
  unfold Obligations.CommandEncodingsCount
  calc (Set.range Command.encode).ncard
    _ = Nat.card Command := Set.ncard_range_of_injective encode_injective
    _ = ∑ k : CommandKind, encodingsOfFormat k.format := by
      rw [← Nat.card_congr (Equiv.sigmaFiberEquiv Command.kind), Nat.card_sigma]
      exact Finset.sum_congr rfl fun k _ => hkind k
    _ = 3 + 13 * 256 + 2 * 65536 := rfl

/-! ### Operands of a request record: what bytes carry is what these bytes are (entry 4) -/

theorem coordBytes_coordOfBytes (b0 b1 b2 b3 : Byte) : coordBytes (coordOfBytes b0 b1 b2 b3) = [b0, b1, b2, b3] := by
  have h0 : (b3 ++ b2 ++ b1 ++ b0).extractLsb' 0 8 = b0 := BitVec.extractLsb'_append_eq_right
  have h1 : (b3 ++ b2 ++ b1 ++ b0).extractLsb' 8 8 = b1 :=
    (BitVec.extractLsb'_append_eq_of_le (by decide)).trans BitVec.extractLsb'_append_eq_right
  have h2 : (b3 ++ b2 ++ b1 ++ b0).extractLsb' 16 8 = b2 :=
    (BitVec.extractLsb'_append_eq_of_le (by decide)).trans
      ((BitVec.extractLsb'_append_eq_of_le (by decide)).trans BitVec.extractLsb'_append_eq_right)
  have h3 : (b3 ++ b2 ++ b1 ++ b0).extractLsb' 24 8 = b3 :=
    (BitVec.extractLsb'_append_eq_of_le (by decide)).trans
      ((BitVec.extractLsb'_append_eq_of_le (by decide)).trans BitVec.extractLsb'_append_eq_left)
  show (b3 ++ b2 ++ b1 ++ b0).extractLsb' 0 8 :: (b3 ++ b2 ++ b1 ++ b0).extractLsb' 8 8 ::
    (b3 ++ b2 ++ b1 ++ b0).extractLsb' 16 8 :: [(b3 ++ b2 ++ b1 ++ b0).extractLsb' 24 8] = _
  rw [h0, h1, h2, h3]

theorem grayByte_of_grayOfByte {b : Byte} {v : Nibble} (h : grayOfByte b = .ok v) : grayByte v = b := by
  have key : ∀ b : Byte, b.extractLsb' 4 4 = 0 → grayByte (b.extractLsb' 0 4) = b := by decide
  unfold grayOfByte at h
  split at h
  · rw [← Except.ok.inj h, key b ‹_›]
  · cases h

theorem pixelBytes_of_pixelOfBytes {x0 x1 x2 x3 y0 y1 y2 y3 vb : Byte} {p : Pixel}
    (h : pixelOfBytes x0 x1 x2 x3 y0 y1 y2 y3 vb = .ok p) : pixelBytes p = [x0, x1, x2, x3, y0, y1, y2, y3, vb] := by
  unfold pixelOfBytes at h
  split at h
  · cases h
  · rw [← Except.ok.inj h, pixelBytes, coordBytes_coordOfBytes, coordBytes_coordOfBytes, grayByte_of_grayOfByte ‹_›]
    rfl

/-! ### Batches: each entry behind a byte 1, a byte 0 at the end -/

@[simp] theorem batchBytes_cons (p : Pixel) (batch : List Pixel) :
    batchBytes (p :: batch) = 1#8 :: pixelBytes p ++ batchBytes batch := by
  simp [batchBytes]

/-- A pixel's bytes behind a byte 1 put that pixel in front of the entries decoded after them. -/
theorem decodeBatch_pixelBytes_append (p : Pixel) (bytes : List Byte) :
    decodeBatch (1#8 :: (pixelBytes p ++ bytes)) = (decodeBatch bytes).map (fun r => (p :: r.1, r.2)) := by
  refine (decodeBatch_entry ..).trans ?_
  rw [pixelOfBytes_pixelBytes, List.append_eq, List.nil_append]
  cases decodeBatch bytes <;> rfl

/-- A batch survives its bytes. -/
theorem decodeBatch_batchBytes_append (batch : List Pixel) (rest : List Byte) :
    decodeBatch (batchBytes batch ++ rest) = .ok (batch, rest) := by
  induction batch with
  | nil => exact decodeBatch_end rest
  | cons p batch ih =>
    rw [batchBytes_cons, List.cons_append, List.cons_append, List.append_assoc, decodeBatch_pixelBytes_append, ih]
    rfl

theorem decodeBatch_badMark {mark : Byte} (h0 : mark ≠ 0) (h1 : mark ≠ 1) (rest : List Byte) :
    decodeBatch (mark :: rest) = .error (.badBatchMark mark) := by
  rw [decodeBatch.eq_def]
  exact (if_neg h0).trans (if_neg h1)

theorem eq_batchBytes_of_decodeBatch {bytes : List Byte} {batch : List Pixel} {rest : List Byte}
    (h : decodeBatch bytes = .ok (batch, rest)) : bytes = batchBytes batch ++ rest := by
  induction bytes using decodeBatch.induct generalizing batch rest with
  | case1 => cases h
  | case2 rest =>
    obtain ⟨rfl, rfl⟩ : batch = [] ∧ _ = rest := by simpa [decodeBatch_end] using h
    rfl
  | case3 _ _ _ _ _ _ _ _ _ _ e hpixel => simp [decodeBatch_entry, hpixel] at h
  | case4 _ _ _ _ _ _ _ _ _ _ p hpixel e hmore => simp [decodeBatch_entry, hpixel, hmore] at h
  | case5 _ _ _ _ _ _ _ _ _ more p hpixel ps left hmore _ ih =>
    obtain ⟨rfl, rfl⟩ : p :: ps = batch ∧ left = rest := by simpa [decodeBatch_entry, hpixel, hmore] using h
    rw [ih hmore, batchBytes_cons, pixelBytes_of_pixelOfBytes hpixel]
    rfl
  | case6 rest hrest => simp [decodeBatch] at h
  | case7 mark tail h0 h1 => cases (decodeBatch_badMark h0 h1 tail).symm.trans h

/-! ### The operands of a host operation, by its select code (R90) -/

theorem decodeHostOp_drawpixel (x0 x1 x2 x3 y0 y1 y2 y3 vb : Byte) (more : List Byte) :
    decodeHostOp 4 (x0 :: x1 :: x2 :: x3 :: y0 :: y1 :: y2 :: y3 :: vb :: more) =
      (pixelOfBytes x0 x1 x2 x3 y0 y1 y2 y3 vb).map (fun p => (.drawpixel p.x p.y p.v, more)) := by
  cases h : pixelOfBytes x0 x1 x2 x3 y0 y1 y2 y3 vb <;> simp [decodeHostOp, h, Except.map]

theorem decodeHostOp_clear (vb : Byte) (more : List Byte) :
    decodeHostOp 5 (vb :: more) = (grayOfByte vb).map (fun v => (.clear v, more)) := by
  cases h : grayOfByte vb <;> simp [decodeHostOp, h, Except.map]

theorem decodeHostOp_drawbatch (operands : List Byte) :
    decodeHostOp 7 operands = (decodeBatch operands).map (fun r => (.drawbatch r.1, r.2)) := by
  cases h : decodeBatch operands <;> simp [decodeHostOp, h, Except.map]

theorem exists_ok_of_map_eq_ok {α β : Type} {f : α → β} {x : Except Reject α} {b : β} (h : x.map f = .ok b) :
    ∃ a, x = .ok a ∧ f a = b := by
  cases x with
  | error e => cases h
  | ok a => exact ⟨a, rfl, Except.ok.inj h⟩

theorem cons_eq_encode_of_decodeHostOp {op : BitVec 3} {operands rest : List Byte} {i : Instr}
    (h : decodeHostOp op operands = .ok (i, rest)) : op.setWidth 8 :: operands = encode i ++ rest := by
  have hops : ∀ op : BitVec 3, op = 0 ∨ op = 1 ∨ op = 2 ∨ op = 3 ∨ op = 4 ∨ op = 5 ∨ op = 6 ∨ op = 7 := by decide
  obtain rfl | rfl | rfl | rfl | rfl | rfl | rfl | rfl := hops op
  · cases h; rfl
  · cases h; rfl
  · obtain _ | ⟨sel, _ | ⟨a, _ | ⟨b, more⟩⟩⟩ := operands <;> cases h
    rfl
  · cases h; rfl
  · match operands, h with
    | x0 :: x1 :: x2 :: x3 :: y0 :: y1 :: y2 :: y3 :: vb :: more, h =>
      rw [decodeHostOp_drawpixel] at h
      obtain ⟨p, hp, heq⟩ := exists_ok_of_map_eq_ok h
      cases heq
      exact congrArg (4#8 :: · ++ rest) (pixelBytes_of_pixelOfBytes hp).symm
  · obtain _ | ⟨vb, more⟩ := operands
    · cases h
    obtain ⟨v, hv, heq⟩ := exists_ok_of_map_eq_ok ((decodeHostOp_clear vb more).symm.trans h)
    cases heq
    rw [← grayByte_of_grayOfByte hv]
    rfl
  · cases h; rfl
  · obtain ⟨⟨batch, more⟩, hbatch, heq⟩ := exists_ok_of_map_eq_ok ((decodeHostOp_drawbatch operands).symm.trans h)
    cases heq
    rw [eq_batchBytes_of_decodeBatch hbatch]
    rfl
/-! ### Request records -/

/-- A select code is no opcode, so a record that starts with it is a host operation's (R90). -/
theorem decode_selectCode_cons (op : BitVec 3) (rest : List Byte) :
    decode (op.setWidth 8 :: rest) = decodeHostOp op rest := by
  have key : ∀ op : BitVec 3, CommandKind.ofOpcode (op.setWidth 8) = none ∧
      (op.setWidth 8 : Byte).extractLsb' 3 5 = 0 ∧ (op.setWidth 8 : Byte).extractLsb' 0 3 = op := by decide
  obtain ⟨hop, hhigh, hlow⟩ := key op
  simp only [decode, hop, hhigh, hlow, if_true]

/-- A command row's record is its command's bytes (entry 6). -/
@[simp] theorem encode_ofCommand (c : Command) : encode (Instr.ofCommand c) = c.encode := by
  cases c <;> rfl

/-- A record that starts with an opcode goes to the command decoder. -/
theorem decode_opcode_cons (k : CommandKind) (operands : List Byte) :
    decode (k.opcode :: operands) =
      (Command.decode (k.opcode :: operands)).map (fun r => (Instr.ofCommand r.1, r.2)) := by
  simp only [decode, ofOpcode_opcode]
  cases Command.decode (k.opcode :: operands) <;> rfl

theorem decode_commandEncode_append (c : Command) (rest : List Byte) :
    decode (c.encode ++ rest) = .ok (Instr.ofCommand c, rest) := by
  refine (decode_opcode_cons c.kind (c.operands ++ rest)).trans ?_
  have hdecode : Command.decode (c.kind.opcode :: (c.operands ++ rest)) = .ok (c, rest) :=
    commandDecode_encode_append c rest
  rw [hdecode]
  rfl

/-- A byte with bits 7:3 zero is the select code in bits 2:0 (R90). -/
theorem setWidth_extractLsb'_of_high_zero {b : Byte} (h : b.extractLsb' 3 5 = 0) :
    (b.extractLsb' 0 3).setWidth 8 = b := by
  revert b; decide

/-- Settles O2: the first byte tells a command from a host operation, and the operands survive their bytes. -/
theorem decodeOfEncode : Obligations.DecodeOfEncode := by
  intro i rest
  cases i with
  | reset => exact decode_selectCode_cons 0 rest
  | init => exact decode_selectCode_cons 1 rest
  | sendcmd sel a b => exact decode_selectCode_cons 2 (sel :: a :: b :: rest)
  | flush => exact decode_selectCode_cons 3 rest
  | drawpixel x y v =>
    refine (decode_selectCode_cons 4 (pixelBytes ⟨x, y, v⟩ ++ rest)).trans ?_
    exact (decodeHostOp_drawpixel ..).trans (by rw [pixelOfBytes_pixelBytes ⟨x, y, v⟩]; rfl)
  | clear v =>
    refine (decode_selectCode_cons 5 (grayByte v :: rest)).trans ?_
    rw [decodeHostOp_clear, grayOfByte_grayByte]; rfl
  | bbox => exact decode_selectCode_cons 6 rest
  | drawbatch batch =>
    refine (decode_selectCode_cons 7 (batchBytes batch ++ rest)).trans ?_
    rw [decodeHostOp_drawbatch, decodeBatch_batchBytes_append]; rfl
  | _ => exact decode_commandEncode_append _ rest

/-- Settles O3: an opcode leads to R130's decoder, a select code to the host operation's operands, and both give back
the bytes. -/
theorem encodeOfDecode : Obligations.EncodeOfDecode := by
  intro bytes i rest h
  obtain _ | ⟨b, operands⟩ := bytes
  · cases h
  cases hop : CommandKind.ofOpcode b with
  | some k =>
    obtain rfl := opcode_of_ofOpcode hop
    obtain ⟨⟨c, left⟩, hc, heq⟩ := exists_ok_of_map_eq_ok ((decode_opcode_cons k operands).symm.trans h)
    cases heq
    rw [eq_encode_of_commandDecode hc, encode_ofCommand]
  | none =>
    simp only [decode, hop] at h
    split at h
    next hhigh =>
      rw [← setWidth_extractLsb'_of_high_zero hhigh]
      exact cons_eq_encode_of_decodeHostOp h
    next => cases h

/-- Settles O1: each word is run through the decoder. -/
theorem tableWordsDecode : Obligations.TableWordsDecode :=
  ⟨rfl, rfl, rfl, rfl, rfl, rfl, rfl, rfl, rfl, rfl, rfl⟩

end Sys2Proof.Machine

/-! PROOFS. Steps of the whole machine (00_scope.md R14, R15): what a step runs, that every well-formed instruction
completes, what no operation changes, and what the one operation that took the bus write error leaves (R206). -/

namespace Sys2Proof.Machine

/-! ### What a step runs (R14, R15; entries 5 and 20) -/

theorem step_of_no_request {s : State} (h : s.requests = []) : step s = .next s := by
  simp only [step, h]

theorem step_of_decode_ok {s : State} {record : List Byte} {rest : List (List Byte)} {i : Instr} {left : List Byte}
    (hrequests : s.requests = record :: rest) (hdecode : decode record = .ok (i, left)) :
    step s = exec i (s.setRequests rest) := by
  simp only [step, hrequests, hdecode]

theorem step_of_decode_error {s : State} {record : List Byte} {rest : List (List Byte)} {why : Reject}
    (hrequests : s.requests = record :: rest) (hdecode : decode record = .error why) :
    step s = .refused (.notARequest why) := by
  simp only [step, hrequests, hdecode]

/-- Settles O11: the record leaves the queue and its instruction runs. -/
theorem stepRunsDecodedRequest : Obligations.StepRunsDecodedRequest := fun _ _ _ _ _ => step_of_decode_ok

/-- Settles O13: the two cases in which nothing runs. -/
theorem stepWithoutARequest : Obligations.StepWithoutARequest :=
  fun _ => ⟨step_of_no_request, fun _ _ _ => step_of_decode_error⟩

/-- A table word that names an instruction decodes to it. -/
theorem exists_decode_of_decodeTableWord {nbits w : Nat} {i : Instr} (h : decodeTableWord nbits w = some i) :
    ∃ left, decode (tableBytes nbits w) = .ok (i, left) := by
  unfold decodeTableWord at h
  split at h
  next j left hdecode => exact ⟨left, Option.some.inj h ▸ hdecode⟩
  next => cases h

/-- Settles O12: the word is the first record, and with it removed the state is as before. -/
theorem stepRunsTableWord : Obligations.StepRunsTableWord := by
  intro s nbits w i h
  obtain ⟨left, hdecode⟩ := exists_decode_of_decodeTableWord h
  exact step_of_decode_ok (s := s.withFetchWord nbits w) rfl hdecode

/-! ### Every well-formed instruction completes, and nothing faults (R51, R91) -/

/-- An instruction completes, unless it is SENDCMD of a selector that is no opcode. -/
theorem exec_completes_or_refuses (i : Instr) (s : State) :
    (∃ t, exec i s = .next t) ∨
      ∃ sel a b, i = .sendcmd sel a b ∧ CommandKind.ofOpcode sel = none ∧
        exec i s = .refused (.selectorOutsideClosedSet sel) := by
  rcases instr_kinds i with ⟨c, hc⟩ | ⟨sel, a, b, rfl, hsel⟩ | rfl | rfl | rfl | rfl | hd
  · exact .inl ⟨_, exec_sends hc s⟩
  · exact .inr ⟨sel, a, b, rfl, hsel, exec_sendcmd_refused hsel s⟩
  · exact .inl ⟨_, exec_reset_eq s⟩
  · exact .inl ⟨_, exec_init_eq s⟩
  · exact .inl ⟨_, exec_flush_eq s⟩
  · exact .inl ⟨_, exec_bbox_eq s⟩
  · exact .inl ⟨_, exec_draws hd s⟩

theorem exec_ne_fault (i : Instr) (s : State) (f : Fault) : exec i s ≠ .fault f := by
  rcases exec_completes_or_refuses i s with ⟨t, h⟩ | ⟨sel, a, b, -, -, h⟩ <;> rw [h] <;> exact nofun

theorem step_ne_fault (s : State) (f : Fault) : step s ≠ .fault f := by
  cases hrequests : s.requests with
  | nil => exact step_of_no_request hrequests ▸ nofun
  | cons record rest =>
    cases hdecode : decode record with
    | ok r => exact step_of_decode_ok hrequests hdecode ▸ exec_ne_fault r.1 _ f
    | error why => exact step_of_decode_error hrequests hdecode ▸ nofun

/-- Settles O14: the one instruction that does not complete is refused, and it is not well formed. -/
theorem wellFormedInstructionsComplete : Obligations.WellFormedInstructionsComplete := by
  refine ⟨fun i s hwf => ?_, exec_ne_fault, step_ne_fault⟩
  rcases exec_completes_or_refuses i s with h | ⟨sel, a, b, rfl, hsel, -⟩
  · exact h
  · simp [Instr.WellFormed, hsel] at hwf

/-! ### What no operation changes (R6, R8, R14, R21) -/

/-- From `s` to `t` the parameters and the waiting requests are as before. -/
def OperationFrame (s t : State) : Prop := t.geom = s.geom ∧ t.neutral = s.neutral ∧ t.requests = s.requests

theorem finish_runCalls_frame (cs : List Call) (s : State) {onOk : State → State}
    (hok : ∀ u, OperationFrame u (onOk u)) : OperationFrame s (finish (runCalls cs s) onOk) := by
  rcases finish_runCalls_cases cs s onOk with ⟨-, heq⟩ | ⟨done, c, rest, -, -, -, -, heq⟩ <;> rw [heq]
  · exact hok (s.afterCalls _ _)
  · exact ⟨rfl, rfl, rfl⟩

theorem afterSending_frame (k : CommandKind) (bytes : List Byte) (s : State) :
    OperationFrame s (afterSending k bytes s) := by
  unfold afterSending
  split <;> exact ⟨rfl, rfl, rfl⟩

/-- No instruction changes a parameter or a waiting request. -/
theorem exec_frame {i : Instr} {s t : State} (h : exec i s = .next t) : OperationFrame s t := by
  rcases exec_cases h with ⟨c, -, rfl⟩ | ⟨-, rfl⟩ | ⟨-, rfl⟩ | ⟨-, -, rfl⟩ | ⟨-, -, rfl⟩ | ⟨-, rfl⟩ | ⟨-, rfl⟩
  · exact afterSending_frame c.kind c.encode s
  · exact finish_runCalls_frame resetCalls (s.setPanel .unknown) fun _ => ⟨rfl, rfl, rfl⟩
  · exact finish_runCalls_frame (initCalls s.geom) (s.setPanel .unknown) fun _ => ⟨rfl, rfl, rfl⟩
  all_goals exact ⟨rfl, rfl, rfl⟩

/-- Settles O48: a step does nothing or runs one instruction, which keeps the parameters. -/
theorem parametersNeverChange : Obligations.ParametersNeverChange := by
  intro s t h
  rcases step_cases h with ⟨-, rfl⟩ | ⟨record, rest, i, left, -, -, hexec⟩
  · exact ⟨rfl, rfl⟩
  · obtain ⟨hgeom, hneutral, -⟩ := exec_frame hexec
    exact ⟨hgeom, hneutral⟩

/-- Settles O47: events and one answer are appended, and the frame keeps the waiting requests. -/
theorem historyOnlyGrows : Obligations.HistoryOnlyGrows := by
  intro i s t h
  obtain ⟨-, -, hrequests⟩ := exec_frame h
  rcases exec_ends h with ⟨events, box, htrace, hanswers, -⟩ | ⟨made, e, htrace, hanswers, -, -⟩
  · exact ⟨⟨events, htrace.symm⟩, ⟨_, hanswers⟩, hrequests⟩
  · exact ⟨⟨made ++ [e], htrace.symm⟩, ⟨_, hanswers⟩, hrequests⟩

/-! ### FB is written by drawing only, and keeps its form (R21, R51) -/

/-- FLUSH reads FB and leaves it: its one event is the whole buffer with the next coming answer (R144). -/
theorem exists_exec_flush (s : State) : ∃ t, exec .flush s = .next t ∧ t.fb = s.fb ∧
    t.trace = s.trace ++ [.data (snapshot s.geom s.fb) (s.answerAt 0)] ∧ ∀ k, t.answerAt k = s.answerAt (1 + k) := by
  refine ⟨_, exec_flush_eq s, ?_⟩
  cases s.answerAt 0 with
  | ok => exact ⟨rfl, rfl, answerAt_afterCalls s [.data (snapshot s.geom s.fb) .ok] 1⟩
  | err => exact ⟨rfl, rfl, answerAt_afterCalls s [.data (snapshot s.geom s.fb) .err] 1⟩

/-- Settles O28: the first FLUSH leaves the geometry and FB, so the second one takes the same snapshot. -/
theorem flushRetrySendsTheSameBlock : Obligations.FlushRetrySendsTheSameBlock := by
  intro s
  obtain ⟨t, ht, htfb, httrace, htanswers⟩ := exists_exec_flush s
  obtain ⟨u, hu, hufb, hutrace, -⟩ := exists_exec_flush t
  obtain ⟨hgeom, -, -⟩ := exec_frame ht
  refine ⟨t, u, ht, hu, snapshot s.geom s.fb, length_snapshot s.geom s.fb, ?_, hufb.trans htfb⟩
  rw [hutrace, httrace, hgeom, htfb, htanswers, List.append_assoc]
  rfl

/-- An instruction that does not draw leaves FB: FLUSH reads it, every other one ignores it (R59). -/
theorem fb_of_exec_of_not_draws {i : Instr} {s t : State} (hdraws : Instr.draws i = false) (h : exec i s = .next t) :
    t.fb = s.fb := by
  by_cases hflush : i = .flush
  · obtain ⟨u, hu, hfb, -, -⟩ := exists_exec_flush s
    rw [← hflush, h] at hu
    exact Host.Outcome.next.inj hu ▸ hfb
  · exact fb_of_exec_next hflush hdraws h

theorem fb_of_exec_draws {i : Instr} {s t : State} (hdraws : Instr.draws i = true) (h : exec i s = .next t) :
    t.fb = fbAfter s.geom s.fb i := by
  rw [exec_draws hdraws] at h
  exact Host.Outcome.next.inj h ▸ rfl

theorem exec_keeps_fbInv {i : Instr} {s t : State} (hs : FbInv s) (h : exec i s = .next t) : FbInv t := by
  obtain ⟨hgeom, -, -⟩ := exec_frame h
  cases hdraws : Instr.draws i with
  | true =>
    rw [FbInv, hgeom, fb_of_exec_draws hdraws h]
    exact fbAfter_fits hs i
  | false =>
    rw [FbInv, hgeom, fb_of_exec_of_not_draws hdraws h]
    exact hs

/-- Settles O54: only drawing writes FB, and it writes bytes of the buffer in canonical form. -/
theorem stepKeepsFramebufferForm : Obligations.StepKeepsFramebufferForm := by
  intro s t hs h
  rcases step_cases h with ⟨-, rfl⟩ | ⟨record, rest, i, left, -, -, hexec⟩
  · exact hs
  · exact exec_keeps_fbInv (s := s.setRequests rest) hs hexec

/-- Settles O43: an instruction that writes FB draws. -/
theorem onlyDrawingWritesTheFramebuffer : Obligations.OnlyDrawingWritesTheFramebuffer := by
  intro i s t h hne
  have hdraws : Instr.draws i = true := by
    by_contra hd
    exact hne (fb_of_exec_of_not_draws (Bool.eq_false_iff.mpr hd) h)
  cases i with
  | drawpixel x y v => exact .inl ⟨x, y, v, rfl⟩
  | clear v => exact .inr (.inl ⟨v, rfl⟩)
  | drawbatch batch => exact .inr (.inr ⟨batch, rfl⟩)
  | _ => cases hdraws

/-! ### Taking the bus write error (R206) -/

/-- A drawing instruction answers `ok` (R170). -/
theorem draws_eq_false_of_busWriteError {i : Instr} {s t : State} (h : exec i s = .next t)
    (herr : t.answers = s.answers ++ [⟨.busWriteError, none⟩]) : Instr.draws i = false := by
  by_contra hd
  obtain ⟨u, hu, hne⟩ := exec_draws_or_bbox_never_raises (.inl (Bool.not_eq_false _ ▸ hd)) s
  rw [h] at hu
  exact hne (Host.Outcome.next.inj hu ▸ herr)

/-- A failed reset-line call, last of the new events, leaves RES unknown (R27). -/
theorem resAfterEvent_of_line_err {level : LineLevel} {r : Answer} (h : (Event.line level r).answer? = some .err)
    (l : ResetLine) : resAfterEvent l (.line level r) = .unknown := by
  obtain rfl : r = .err := Option.some.inj h
  rfl

/-- Settles O44: the tables give the ghost values, the failed call is the last event, and RES follows the events. -/
theorem busWriteErrorEntry : Obligations.BusWriteErrorEntry := by
  intro i s t h herr
  obtain ⟨-, -, hrequests⟩ := exec_frame h
  refine ⟨fb_of_exec_of_not_draws (draws_eq_false_of_busWriteError h herr) h, (phaseFollowsItsTable i s t h).1 herr,
    (panelFollowsItsTable i s t h).1 herr, hrequests, ?_⟩
  rcases exec_ends h with hok | ⟨made, e, htrace, -, he, hmade⟩
  · exact absurd herr hok.answers_ne
  · refine ⟨made, e, by rw [htrace, List.append_assoc], he, hmade, ?_⟩
    rintro level r rfl
    obtain ⟨events, htrace', hres⟩ := exec_resFollowsNewEvents h
    obtain rfl : events = made ++ [.line level r] := List.append_cancel_left (htrace'.symm.trans htrace)
    rw [hres, List.foldl_concat, resAfterEvent_of_line_err he]

/-! ### Which operations enter `Reset` and `Initialized` (R26, R233) -/

/-- Besides RESET and INIT an instruction keeps `phase` or withdraws it. -/
theorem phaseAfterOk_cases (s : State) (i : Instr) :
    i = .reset ∨ i = .init ∨ phaseAfterOk s i = .uncommitted ∨ phaseAfterOk s i = s.phase := by
  rcases instr_kinds i with ⟨c, hc⟩ | ⟨sel, a, b, rfl, hsel⟩ | h | h | h | h | h
  · rw [phaseAfterOk_of_sends hc, phaseAfterSend]
    split <;> simp
  · simp [phaseAfterOk, Instr.sends?, Command.ofPort, hsel]
  · exact .inl h
  · exact .inr (.inl h)
  · exact .inr (.inr (.inr (phaseAfterOk_of_keeps (.inl h) s)))
  · exact .inr (.inr (.inr (phaseAfterOk_of_keeps (.inr (.inl h)) s)))
  · exact .inr (.inr (.inr (phaseAfterOk_of_keeps (.inr (.inr h)) s)))

/-- INIT enters `Initialized` from `Reset` only (D24). -/
theorem reset_of_phaseAfterInit {p : Phase} (hafter : phaseAfterInit p = .initialized) (hp : p ≠ .initialized) :
    p = .reset := by
  cases p with
  | uncommitted => cases hafter
  | reset => rfl
  | initialized => exact absurd rfl hp

theorem phaseAfterInit_ne_reset (p : Phase) : phaseAfterInit p ≠ .reset := by
  cases p <;> exact nofun

/-- An operation made of calls that does not answer `BusWriteError` answers `ok` without a box. -/
theorem finish_runCalls_answers_ok (cs : List Call) (s : State) {onOk : State → State}
    (hanswers : ∀ u, (onOk u).answers = u.answers)
    (hne : (finish (runCalls cs s) onOk).answers ≠ s.answers ++ [⟨.busWriteError, none⟩]) :
    (finish (runCalls cs s) onOk).answers = s.answers ++ [⟨.ok, none⟩] := by
  rcases finish_runCalls_cases cs s onOk with ⟨-, heq⟩ | ⟨done, c, rest, -, -, -, -, heq⟩ <;> rw [heq] at hne ⊢
  · rw [answers_answerOk, hanswers, answers_afterCalls]
  · exact absurd rfl hne

/-- Settles O53: `phase` goes by its table, in which only RESET's row and INIT's row enter `Reset` or `Initialized`. -/
theorem initializedNeedsResetThenInit : Obligations.InitializedNeedsResetThenInit := by
  intro i s t h
  rcases exec_answersWithPhase h with ⟨-, hphase⟩ | ⟨hne, hphase⟩
  · simp [hphase]
  rw [hphase]
  rcases phaseAfterOk_cases s i with rfl | rfl | hp | hp
  · obtain rfl := Host.Outcome.next.inj h
    exact ⟨nofun, fun _ _ => ⟨rfl, finish_runCalls_answers_ok _ (s.setPanel .unknown) (fun _ => rfl) hne⟩⟩
  · obtain rfl := Host.Outcome.next.inj h
    exact ⟨fun hafter hbefore => ⟨rfl, reset_of_phaseAfterInit hafter hbefore,
        finish_runCalls_answers_ok _ (s.setPanel .unknown) (fun _ => rfl) hne⟩,
      fun hafter => absurd hafter (phaseAfterInit_ne_reset s.phase)⟩
  · simp [hp]
  · exact ⟨fun hafter hbefore => absurd (hp ▸ hafter) hbefore, fun hafter hbefore => absurd (hp ▸ hafter) hbefore⟩

/-! ### What the block puts on the bus (R85, R87, R211) -/

/-- From `s` to `t` only events the block may emit were appended. -/
def EmitsAllowed (s t : State) : Prop :=
  ∃ events, t.trace = s.trace ++ events ∧ ∀ e ∈ events, EventAllowed s.geom e

theorem EmitsAllowed.traceDisciplined {s t : State} (h : EmitsAllowed s t) (hgeom : t.geom = s.geom)
    (hs : TraceDisciplined s) : TraceDisciplined t := by
  obtain ⟨events, htrace, hevents⟩ := h
  rw [TraceDisciplined, htrace, hgeom]
  exact List.forall_mem_append.mpr ⟨hs, hevents⟩

/-- An operation made of calls emits events of its calls only. -/
theorem finish_runCalls_emitsAllowed {cs : List Call} {s : State} {onOk : State → State}
    (hcs : ∀ c ∈ cs, ∀ r, EventAllowed s.geom (c.event r)) (htrace : ∀ u, (onOk u).trace = u.trace) :
    EmitsAllowed s (finish (runCalls cs s) onOk) := by
  rcases finish_runCalls_cases cs s onOk with ⟨-, heq⟩ | ⟨done, c, rest, rfl, -, -, -, heq⟩ <;> rw [heq]
  · exact ⟨cs.map (Call.event .ok), by simp [htrace], List.forall_mem_map.2 fun c hc => hcs c hc .ok⟩
  · obtain ⟨hdone, hrest⟩ := List.forall_mem_append.mp hcs
    have hc := (List.forall_mem_cons.mp hrest).1
    refine ⟨done.map (Call.event .ok) ++ [c.event .err], rfl, List.forall_mem_append.mpr ⟨?_, ?_⟩⟩
    · exact List.forall_mem_map.2 fun d hd => hdone d hd .ok
    · exact List.forall_mem_singleton.mpr (hc .err)

/-- Every instruction emits encodings of commands, whole buffers and delays of 100 only. -/
theorem exec_emitsAllowed {i : Instr} {s t : State} (h : exec i s = .next t) : EmitsAllowed s t := by
  rcases exec_cases h with ⟨c, -, rfl⟩ | ⟨-, rfl⟩ | ⟨-, rfl⟩ | ⟨-, -, rfl⟩ | ⟨-, -, rfl⟩ | ⟨-, rfl⟩ | ⟨-, rfl⟩
  · exact ⟨_, trace_afterSending _ _ _, List.forall_mem_singleton.mpr ⟨c, rfl⟩⟩
  · refine finish_runCalls_emitsAllowed (s := s.setPanel .unknown) ?_ fun _ => rfl
    simp [resetCalls, Call.event, EventAllowed, Config.resetDelay]
  · refine finish_runCalls_emitsAllowed (s := s.setPanel .unknown) ?_ fun _ => rfl
    exact List.forall_mem_map.2 fun c _ _ => ⟨c, rfl⟩
  · exact ⟨[.data _ .ok], rfl, List.forall_mem_singleton.mpr (length_snapshot s.geom s.fb)⟩
  · exact ⟨[.data _ .err], rfl, List.forall_mem_singleton.mpr (length_snapshot s.geom s.fb)⟩
  · exact ⟨[], (List.append_nil _).symm, nofun⟩
  · exact ⟨[], (List.append_nil _).symm, nofun⟩

/-- Settles O56: a step does nothing or runs one instruction, whose new events are allowed. -/
theorem stepKeepsBusDiscipline : Obligations.StepKeepsBusDiscipline := by
  intro s t hs h
  rcases step_cases h with ⟨-, rfl⟩ | ⟨record, rest, i, left, -, -, hexec⟩
  · exact hs
  · obtain ⟨hgeom, -, -⟩ := exec_frame hexec
    exact (exec_emitsAllowed hexec).traceDisciplined hgeom hs

/-! ### Construction (R36, R230) -/

/-- Settles O10: FB and TRACE are empty, and the ghost values claim nothing. -/
theorem constructionMeetsInvariants : Obligations.ConstructionMeetsInvariants :=
  ⟨rfl, fun _ _ => ⟨⟨Memory.wf_nil, nofun⟩, ghostHistory_of_withdrawn rfl rfl, nofun, rfl⟩⟩

end Sys2Proof.Machine

/-! PROOFS. The laws of the drawing operations that 42_drawing_ops.md and 20_memory.md derive: nibbles (R162), the pixel
map (R52), one pixel (R168), and drawing twice (R61). -/

namespace Sys2Proof.Machine

/-! ### The laws of nibble packing (R162) -/

/-- The last write to the high nibble wins. -/
theorem updateUpperHalf_updateUpperHalf (b : Byte) (v w : Nibble) :
    updateUpperHalf (updateUpperHalf b v) w = updateUpperHalf b w :=
  byte_eq_of_nibbles (by simp) (by simp)

/-- The last write to the low nibble wins. -/
theorem updateLowerHalf_updateLowerHalf (b : Byte) (v w : Nibble) :
    updateLowerHalf (updateLowerHalf b v) w = updateLowerHalf b w :=
  byte_eq_of_nibbles (by simp) (by simp)

theorem updateUpperHalf_updateLowerHalf_comm (b : Byte) (v w : Nibble) :
    updateUpperHalf (updateLowerHalf b v) w = updateLowerHalf (updateUpperHalf b w) v :=
  byte_eq_of_nibbles (by simp) (by simp)

/-- Settles O31: a byte is its two nibbles, and each update sets one of them and keeps the other. -/
theorem nibbleLaws : Obligations.NibbleLaws := by
  refine fun b v w => ⟨lowNibble_updateUpperHalf b v, highNibble_updateLowerHalf b v, highNibble_updateUpperHalf b v,
    lowNibble_updateLowerHalf b v, updateUpperHalf_updateUpperHalf b v v, updateLowerHalf_updateLowerHalf b v v,
    updateUpperHalf_updateUpperHalf b v w, updateLowerHalf_updateLowerHalf b v w,
    updateUpperHalf_updateLowerHalf_comm b v w, ?_⟩
  rw [toNat_eq_nibbles, lowNibble_updateUpperHalf, lowNibble_updateLowerHalf, highNibble_updateUpperHalf, Nat.add_comm]

/-! ### The pixel map and its inverse (R52) -/

/-- Settles O35: quotient and remainder by `W / 2` give row and column pair back, the lane gives the column. -/
theorem pixelMapIsABijection : Obligations.PixelMapIsABijection := by
  intro g
  obtain ⟨heven, hW, -⟩ := g.legal
  refine ⟨fun x y hx hy => ?_, fun i lane hi hlane => ?_⟩
  · obtain ⟨hrow, hpair⟩ := pixelIndex_div_mod g (y := y) hx
    exact ⟨pixelIndex_lt g hx hy, by rw [hpair, Nat.div_add_mod], hrow.symm⟩
  · have hpair : i % (g.W / 2) < g.W / 2 := Nat.mod_lt i (by omega)
    refine ⟨by omega, ?_, ?_⟩
    · exact Nat.div_lt_of_lt_mul (by rwa [bufLen_eq, Nat.mul_comm] at hi)
    · rw [pixelIndex, show (2 * (i % (g.W / 2)) + lane) / 2 = i % (g.W / 2) by omega, Nat.mod_add_div']

/-! ### DRAWPIXEL as pixels (R168) -/

theorem pix_of_not_inBounds {g : Geometry} {x y : Coord} (h : inBounds g x y = false) (m : Memory) :
    pix g m x y = none := by
  simp [pix, h]

/-- A pixel other than the one drawn, in bounds or not, reads as before. -/
theorem pix_drawnFb_of_ne {x y : Coord} {p : Pixel} (h : ¬ (p.x = x ∧ p.y = y)) (g : Geometry) (m : Memory) :
    pix g (drawnFb g m p) x y = pix g m x y := by
  cases hin : inBounds g x y with
  | true => rw [pix_drawnFb hin, if_neg h]
  | false => rw [pix_of_not_inBounds hin, pix_of_not_inBounds hin]

/-- Settles O34: the pixel named reads the value, every other one as before. -/
theorem drawpixelChangesOnePixel : Obligations.DrawpixelChangesOnePixel := by
  refine fun x y v s h => ⟨_, exec_drawpixel_eq x y v s, ?_, fun x' y' hne => ?_⟩
  · exact (pix_drawnFb h s.fb ⟨x, y, v⟩).trans (if_pos ⟨rfl, rfl⟩)
  · exact pix_drawnFb_of_ne (p := ⟨x, y, v⟩) (fun ⟨hx, hy⟩ => hne (Prod.ext hx.symm hy.symm)) s.geom s.fb

/-! ### Drawing twice (R61) -/

/-- What drawing makes of an in-bounds pixel: a value of its own, or the pixel as it was. -/
theorem pix_fbAfter_eq_or {g : Geometry} {x y : Coord} (h : inBounds g x y = true) (i : Instr) :
    ∃ drawn : Option Nibble, ∀ m, pix g (fbAfter g m i) x y = drawn.or (pix g m x y) := by
  cases i with
  | drawpixel px py v =>
    refine ⟨if px = x ∧ py = y then some v else none, fun m => ?_⟩
    refine (pix_drawnFb h m ⟨px, py, v⟩).trans ?_
    split <;> rfl
  | clear v => exact ⟨some v, fun m => pix_fill_clearByte h m v⟩
  | drawbatch batch => exact ⟨_, fun m => pix_drawnAll h m batch⟩
  | _ => exact ⟨none, fun _ => rfl⟩

/-- What an instruction makes of FB it makes of it only once. -/
theorem fbAfter_fbAfter {g : Geometry} {m : Memory} (hm : Memory.fits m g.bufLen) (i : Instr) :
    fbAfter g (fbAfter g m i) i = fbAfter g m i := by
  have honce : Memory.fits (fbAfter g m i) g.bufLen := fbAfter_fits hm i
  refine fb_eq_of_pix_eq (fbAfter_fits honce i) honce fun x y h => ?_
  obtain ⟨drawn, hdrawn⟩ := pix_fbAfter_eq_or h i
  rw [hdrawn, hdrawn, ← Option.or_assoc, Option.or_self]

/-- Settles O41: both runs complete, and the second one draws on the FB of the first. -/
theorem drawingTwiceIsDrawingOnce : Obligations.DrawingTwiceIsDrawingOnce :=
  fun i s hdraws hs => ⟨_, _, exec_draws hdraws s, exec_draws hdraws _, fbAfter_fbAfter hs i⟩

end Sys2Proof.Machine

/-! PROOFS. The ghost values are read by nothing the host or the bus side sees (10_state.md R20): two states that differ
in them only stay so, and append the same events. -/

namespace Sys2Proof.Machine

/-! ### Updates keep states equal but for the ghost values -/

theorem SameButGhost.answerAt_eq {s t : State} (h : SameButGhost s t) (k : Nat) : s.answerAt k = t.answerAt k := by
  simp only [State.answerAt, h.oracle, h.callNo]

theorem SameButGhost.afterCalls {s t : State} (h : SameButGhost s t) (events : List Event) (n : Nat) :
    SameButGhost (s.afterCalls events n) (t.afterCalls events n) :=
  ⟨h.geom, h.neutral, h.fb, h.requests, by simp [h.oracle], by simp [h.callNo], h.answers⟩

theorem SameButGhost.reply {s t : State} (h : SameButGhost s t) (r : Reply) : SameButGhost (s.reply r) (t.reply r) :=
  ⟨h.geom, h.neutral, h.fb, h.requests, h.oracle, h.callNo, by simp [h.answers]⟩

theorem SameButGhost.setFb {s t : State} (h : SameButGhost s t) (m : Memory) : SameButGhost (s.setFb m) (t.setFb m) :=
  ⟨h.geom, h.neutral, rfl, h.requests, h.oracle, h.callNo, h.answers⟩

theorem SameButGhost.setPhase {s t : State} (h : SameButGhost s t) (p q : Phase) :
    SameButGhost (s.setPhase p) (t.setPhase q) :=
  ⟨h.geom, h.neutral, h.fb, h.requests, h.oracle, h.callNo, h.answers⟩

theorem SameButGhost.setPanel {s t : State} (h : SameButGhost s t) (P Q : Panel) :
    SameButGhost (s.setPanel P) (t.setPanel Q) :=
  ⟨h.geom, h.neutral, h.fb, h.requests, h.oracle, h.callNo, h.answers⟩

/-! ### Operations made of calls -/

/-- The same calls get the same answers, and so end the same way with the same events. -/
theorem SameButGhost.finish_runCalls {s t : State} (h : SameButGhost s t) (cs : List Call) (p q : Phase) :
    SameOutputs s t
      (.next (finish (runCalls cs (s.setPanel .unknown)) (fun u => u.setPhase p)))
      (.next (finish (runCalls cs (t.setPanel .unknown)) (fun u => u.setPhase q))) := by
  have hstart : SameButGhost (s.setPanel .unknown) (t.setPanel .unknown) := h.setPanel .unknown .unknown
  rcases finish_runCalls_cases cs (s.setPanel .unknown) (fun u => u.setPhase p) with
    ⟨hok, heq⟩ | ⟨done, c, rest, rfl, hc, hok, herr, heq⟩ <;> rw [heq]
  · rw [finish_runCalls_of_ok fun k hk => (hstart.answerAt_eq k).symm.trans (hok k hk)]
    exact ⟨((hstart.afterCalls _ _).setPhase p q).reply _, _, rfl, rfl⟩
  · rw [finish_runCalls_of_err done rest hc (fun k hk => (hstart.answerAt_eq k).symm.trans (hok k hk))
      ((hstart.answerAt_eq _).symm.trans herr)]
    exact ⟨(((hstart.afterCalls _ _).setPhase _ _).setPanel _ _).reply _, _, rfl, rfl⟩

/-- Sending a command gets the same answer in both states. -/
theorem SameButGhost.afterSending {s t : State} (h : SameButGhost s t) (k : CommandKind) (bytes : List Byte) :
    SameOutputs s t (.next (afterSending k bytes s)) (.next (afterSending k bytes t)) := by
  cases hs : s.answerAt 0 <;>
  · have ht := (h.answerAt_eq 0).symm.trans hs
    simp only [Machine.afterSending, hs, ht]
    exact ⟨⟨h.geom, h.neutral, h.fb, h.requests, congrArg List.tail h.oracle, congrArg (· + 1) h.callNo,
      congrArg (· ++ [_]) h.answers⟩, _, rfl, rfl⟩

/-- FLUSH sends the same block in both states: FB is no ghost value. -/
theorem SameButGhost.flush {s t : State} (h : SameButGhost s t) : SameOutputs s t (exec .flush s) (exec .flush t) := by
  rw [exec_flush_eq, exec_flush_eq, ← h.answerAt_eq, ← h.geom, ← h.fb]
  cases s.answerAt 0 with
  | ok => exact ⟨((h.afterCalls [_] 1).setPanel _ _).reply _, _, rfl, rfl⟩
  | err => exact ⟨(((h.afterCalls [_] 1).setPhase _ _).setPanel _ _).reply _, _, rfl, rfl⟩

/-- Settles O50: each kind of instruction, by the answers, the geometry and the FB that both states share. -/
theorem ghostValuesAreNeverRead : Obligations.GhostValuesAreNeverRead := by
  intro i s t h
  rcases instr_kinds i with ⟨c, hc⟩ | ⟨sel, a, b, rfl, hsel⟩ | rfl | rfl | rfl | rfl | hd
  · rw [exec_sends hc, exec_sends hc]
    exact h.afterSending c.kind c.encode
  · rw [exec_sendcmd_refused hsel, exec_sendcmd_refused hsel]
    rfl
  · exact h.finish_runCalls resetCalls .reset .reset
  · rw [exec_init_eq, exec_init_eq, ← h.geom]
    exact h.finish_runCalls (initCalls s.geom) _ _
  · exact h.flush
  · rw [exec_bbox_eq, exec_bbox_eq, ← h.geom]
    exact ⟨h.reply _, [], by simp, by simp⟩
  · rw [exec_draws hd, exec_draws hd, ← h.geom, ← h.fb]
    exact ⟨(h.setFb _).reply _, [], by simp, by simp⟩

end Sys2Proof.Machine
